-- ==== Sys2Proof/Word.lean ====
section
/-! DEFINITION. The word types of the block: a byte, a bus word (every register, a COEF, SAMPLE or OUT entry) and a
64-bit entry (RAW_TAP, RAW_SAMPLE, the recorded error value). -/

namespace Sys2Proof

/-- A byte of the window (20_memory.md R87). -/
abbrev Byte := BitVec 8

/-- A 32-bit bus word: "All registers are 32 bits wide" (10_state.md, B4). -/
abbrev Word := BitVec 32

/-- A 64-bit entry or error value (10_state.md R43, R45, R47). -/
abbrev DWord := BitVec 64

end Sys2Proof
end

