-- ==== Sys2Proof/Config.lean ====
section
/-! DEFINITION. What the build fixes (00_scope.md R5) and the values the spec leaves open. A value the spec leaves open
is an opaque constant: nothing in Lean can prove what it is. -/

namespace Sys2Proof.Config

/-- The constant of the ID register (10_state.md R33). -/
def idValue : Word := 0x46495207#32

/-- MAX_DATA_BITS (00_scope.md R5). -/
def maxDataBits : Nat := 16

/-- MAX_FRAC_BITS (00_scope.md R5). -/
def maxFracBits : Nat := 63

/-- MAX_ACC_BITS (00_scope.md R5). -/
def maxAccBits : Nat := 64

/-- The largest NMAX a build may have (00_scope.md R5, 20_memory.md R81). -/
def nmaxBound : Nat := 4096

/-- The largest LMAX a build may have (00_scope.md R5, 20_memory.md R81). -/
def lmaxBound : Nat := 512

/-- PARAM of the default build, LMAX = 256 and NMAX = 4096 (10_state.md R34). Another build is another value of the
field `param` of State (log 4). -/
def defaultParam : Word := 0x01001000#32

/-- The size of the window, 2^17 bytes (20_memory.md R81). -/
def windowBytes : Nat := 0x20000

/-- FIR_BASE, the platform address of the window, left OPEN (20_memory.md R81, U7; log 14). -/
opaque firBase : Nat

/-- FREE VALUE (log 6). The n-th unspecified word a host read returns: an entry read while BUSY (10_state.md R53) or
never written since reset (10_state.md R56). -/
opaque freeWord : Nat → Word

/-- FREE VALUE (log 8). What the internal accumulator is left holding after a CONVOLVE: the order of the output
indices is open (20_memory.md R96), so the last sum it held is too. -/
opaque freeAccumulator : Nat → DWord

end Sys2Proof.Config
end

