-- ==== Sys2Proof/Machine/BusTypes.lean ====
section
/-! DEFINITION. The names of the host interface: registers, memories, bus transactions, their responses, and the
inputs of the machine. Data only; what they do is in Machine/Bus.lean. -/

namespace Sys2Proof.Machine

/-- The registers of the window (20_memory.md R80). -/
inductive Reg where
  | id | param | cmd | status | cfg0 | cfg1 | nlen | llen | outlen | errIdx | errValLo | errValHi
  deriving DecidableEq, Repr

/-- The five memories of the window (20_memory.md R81). -/
inductive Region where
  | rawTap | coef | rawSample | sample | out
  deriving DecidableEq, Repr

/-- A host bus transaction at a window offset, with its width in bits and, for a write, its byte lanes. The block takes
only aligned 32-bit accesses with all lanes (20_memory.md R86); the other forms exist so that they can be offered and
turned away. -/
inductive Transaction where
  | read (off : BitVec 17) (bits : Nat)
  | write (off : BitVec 17) (bits : Nat) (lanes : BitVec 4) (v : Word)
  deriving DecidableEq, Repr

/-- A window offset divisible by 4 (20_memory.md R86 item 1, R88). -/
def aligned (off : BitVec 17) : Bool := off.extractLsb' 0 2 == 0#2

/-- `ReadWord(off)` (20_memory.md R84). -/
def readWordAt (off : BitVec 17) : Transaction := .read off 32

/-- `WriteWord(off, v)` (20_memory.md R85). -/
def writeWordAt (off : BitVec 17) (v : Word) : Transaction := .write off 32 0xF#4 v

/-- The response to a transaction that is no bus error. -/
inductive BusResponse where
  /-- A read's data (20_memory.md R84). -/
  | data (v : Word)
  /-- A write that completed (20_memory.md R85). -/
  | ok
  /-- A write dropped because the engine was BUSY. On the bus it is an OK like any other; the model marks it
  (70_reset_and_hazards.md R303, U11; log 15). -/
  | okDropped
  deriving DecidableEq, Repr

/-- The inputs of the machine, one for each step: which agent moves is the scheduler's choice (R309, R311; log 1). -/
inductive Event where
  /-- The host performs one transaction. -/
  | bus (t : Transaction)
  /-- A clock cycle passes in which the engine does not complete (70_reset_and_hazards.md R309). -/
  | cycle
  /-- The engine takes its one step for the accepted command (70_reset_and_hazards.md R311). -/
  | engine
  /-- Reset is asserted and released (70_reset_and_hazards.md R291, R292). -/
  | reset
  deriving DecidableEq, Repr

end Sys2Proof.Machine
end

