-- ==== Sys2Proof/Machine/State.lean ====
section
/-! DEFINITION. The state of the block, all of it plain data: the register file, the five memories, the engine and its
snapshot (10_state.md R30), the internal accumulator (R51), and three fields of the model's own (pending inputs, last
bus response, counter of free values). -/

namespace Sys2Proof.Machine

/-- The error codes (60_exceptions.md R250). Codes 13-255 are reserved and have no constructor. -/
inductive ErrorCode where
  | noError
  | emptyFilter
  | nonFiniteCoefficient
  | coefficientOutOfRange
  | nonFiniteSample
  | invalidBitWidth
  | unsupportedCoeffWidth
  /-- Reserved: kept for the document's taxonomy, never raised (60_exceptions.md R252). -/
  | shapeMismatch
  | illegalCommand
  | lengthOutOfRange
  | invalidConfig
  | qCoefOutOfRange
  | sampleOutOfRange
  deriving DecidableEq, Repr

/-- What the engine holds while BUSY (10_state.md R50): the accepted word and the registers at acceptance, and the
command's progress, of which one step per command (70_reset_and_hazards.md R311) leaves the cycles gone by (log 13). -/
structure Snapshot where
  word : Word
  cfg0 : Word
  cfg1 : Word
  nlen : Word
  llen : Word
  progress : Nat
  deriving DecidableEq, Repr

/-- The engine state (10_state.md R50): STATUS.BUSY = 1 exactly when it is `busy`. -/
inductive Engine where
  | idle
  | busy (snap : Snapshot)
  deriving DecidableEq, Repr

/-- The five memories, byte by byte at their window offsets (20_memory.md R82, R87), in one canonical form: addresses
strictly rising. An unlisted byte has no value: it was never written since reset (10_state.md R56; log 5). -/
abbrev Memory := List Host.Cell

/-- The state of the block. Reset values: `State.reset`. -/
structure State where
  /-- PARAM, the build constants NMAX and LMAX (10_state.md R34). -/
  param : Word
  /-- The engine and, while BUSY, its snapshot (10_state.md R50). -/
  engine : Engine
  /-- STATUS.DONE (10_state.md R36). -/
  done : Bool
  /-- STATUS.ERR (10_state.md R36). -/
  err : Bool
  /-- STATUS.ERRCODE (10_state.md R36). -/
  errCode : ErrorCode
  /-- CFG0 (10_state.md R37). -/
  cfg0 : Word
  /-- CFG1 (10_state.md R38). -/
  cfg1 : Word
  /-- NLEN (10_state.md R39). -/
  nlen : Word
  /-- LLEN (10_state.md R40). -/
  llen : Word
  /-- OUTLEN (10_state.md R41). -/
  outlen : Word
  /-- ERRIDX (10_state.md R42). -/
  errIdx : Word
  /-- ERRVAL_HI and ERRVAL_LO, one above the other (10_state.md R43). -/
  errVal : DWord
  /-- The internal accumulator (10_state.md R51), which no rule reads across output indices (log 8). -/
  acc : DWord
  /-- RAW_TAP, COEF, RAW_SAMPLE, SAMPLE and OUT (10_state.md R45-R49). -/
  mem : Memory
  /-- The model's own: the inputs still to come, the next one first (log 1). -/
  pending : List Event
  /-- The model's own: the bus response of the last transaction (log 12). -/
  response : Option BusResponse
  /-- The model's own: how many free values have been drawn (log 6). -/
  draws : Nat
  deriving DecidableEq, Repr

/-- Why a run stops. The spec's word for each is `fault` (93_implementation_defined.md, U3, U6, V4). -/
inductive Fault where
  /-- Raised by a bus transaction whose offset is not divisible by 4 (20_memory.md R86 item 1). Safe: the block answers
  with an error response and no effect, and the run stops. -/
  | busMisaligned (off : BitVec 17)
  /-- Raised by a bus transaction narrower than 32 bits (20_memory.md R86 item 2). Safe, as above. -/
  | busNarrow (off : BitVec 17)
  /-- Raised by a bus write that leaves out a byte lane (20_memory.md R86 item 2). Safe, as above. -/
  | busPartialLanes (off : BitVec 17)
  /-- Raised by a bus transaction wider than 32 bits (20_memory.md R86 item 3). Safe, as above. -/
  | busWide (off : BitVec 17)
  /-- Raised by a bus transaction at an unmapped offset (20_memory.md R83, R86 item 4). Safe, as above. -/
  | busUnmapped (off : BitVec 17)
  /-- Raised by a command that consumes an entry never written since reset, or a 64-bit entry with a half unwritten
  (10_state.md R56, U3). Safe: the spec asks for it in place of computing with some value. -/
  | neverWritten (g : Region) (index : Nat)
  deriving DecidableEq, Repr

/-- What the model gives no meaning. -/
inductive Refusal where
  /-- Raised by `exec` for a command that has no meaning yet; no arm raises it now. Safe. -/
  | notModelled (mnemonic : String)
  /-- Raised by a read of STATUS while it holds the reserved code 7 (93_implementation_defined.md V5: "a model that reads
  one in STATUS has a broken invariant (`refuse`)"). Safe: no run reaches such a state. -/
  | reservedErrorCode
  deriving DecidableEq, Repr

/-- The machine right after reset (70_reset_and_hazards.md R290). The accumulator's 0 is a DESIGN CHOICE (log 8), and so
are the values of the model's own fields (log 12). -/
def State.reset : State where
  param := Config.defaultParam
  engine := .idle
  done := false
  err := false
  errCode := .noError
  cfg0 := 0x10200C08#32
  cfg1 := 0x00000002#32
  nlen := 0#32
  llen := 0#32
  outlen := 0#32
  errIdx := 0#32
  errVal := 0#64
  acc := 0#64
  mem := []
  pending := []
  response := none
  draws := 0

end Sys2Proof.Machine
end

