-- ==== Sys2Proof/Machine/Flags.lean ====
section
/-! DEFINITION. STATUS and the error registers: the codes, the register words, and the three writes the engine makes to
them, at acceptance (10_state.md R54), at completion (R55) and for an error (60_exceptions.md R262). -/

namespace Sys2Proof.Machine

/-- The number of an error code (60_exceptions.md R250). -/
def ErrorCode.number : ErrorCode → BitVec 8
  | .noError => 0#8
  | .emptyFilter => 1#8
  | .nonFiniteCoefficient => 2#8
  | .coefficientOutOfRange => 3#8
  | .nonFiniteSample => 4#8
  | .invalidBitWidth => 5#8
  | .unsupportedCoeffWidth => 6#8
  | .shapeMismatch => 7#8
  | .illegalCommand => 8#8
  | .lengthOutOfRange => 9#8
  | .invalidConfig => 10#8
  | .qCoefOutOfRange => 11#8
  | .sampleOutOfRange => 12#8

/-- STATUS.BUSY: "1 exactly when the state is BUSY" (10_state.md R50). -/
def State.isBusy (s : State) : Bool :=
  match s.engine with
  | .idle => false
  | .busy _ => true

/-- The word a read of STATUS returns: reserved, ERRCODE [15:8], reserved, ERR [2], DONE [1], BUSY [0]
(10_state.md R36). -/
def State.statusWord (s : State) : Word :=
  0#16 ++ s.errCode.number ++ 0#5 ++ BitVec.ofBool s.err ++ BitVec.ofBool s.done ++ BitVec.ofBool s.isBusy

/-- ERRVAL_LO, bits [31:0] of the recorded value (10_state.md R43). -/
def State.errValLo (s : State) : Word := s.errVal.extractLsb' 0 32

/-- ERRVAL_HI, bits [63:32] of the recorded value (10_state.md R43). -/
def State.errValHi (s : State) : Word := s.errVal.extractLsb' 32 32

/-- What `raise Error(code, idx, val)` carries (00_scope.md R9, 60_exceptions.md R262). -/
structure CommandError where
  code : ErrorCode
  idx : Nat
  val : DWord
  deriving DecidableEq, Repr

/-- The acceptance writes but BUSY: DONE, ERR, ERRCODE, ERRIDX and ERRVAL are cleared (10_state.md R54). -/
def State.clearFlags (s : State) : State :=
  { s with done := false, err := false, errCode := .noError, errIdx := 0#32, errVal := 0#64 }

/-- The completion writes: BUSY <- 0 and DONE <- 1 (10_state.md R55). Without an error "ERR stays 0": it is left as the
acceptance set it (log 11). -/
def State.complete (s : State) : State := { s with engine := .idle, done := true }

/-- The error writes: ERR, ERRCODE, ERRIDX = idx[31:0] and ERRVAL = val[63:0] (60_exceptions.md R262). -/
def State.recordError (e : CommandError) (s : State) : State :=
  { s with err := true, errCode := e.code, errIdx := BitVec.ofNat 32 e.idx, errVal := e.val }

end Sys2Proof.Machine
end

