-- ==== Sys2Proof/Machine/Arith.lean ====
section
/-! DEFINITION. The primitives of the spec's pseudocode (00_scope.md R8-R11): bit fields, the value of a binary64
pattern, rounding of an exact real, clamp, two's-complement wrap and the rescaling shift. Reals are exact (R9); every
real the rules form is rational, so `Rat` holds it (log 17). -/

namespace Sys2Proof.Machine

/-- `v[lo + len - 1 : lo]`, read as an unsigned integer (00_scope.md R8). -/
def field {w : Nat} (v : BitVec w) (lo len : Nat) : Nat := (v.extractLsb' lo len).toNat

/-- `v[i]` as a flag (00_scope.md R8). -/
def flag {w : Nat} (v : BitVec w) (i : Nat) : Bool := v.getLsbD i

/-- `zext_64` of an unsigned value (00_scope.md R9). -/
def zext64 (n : Nat) : DWord := BitVec.ofNat 64 n

/-- The exponent field e of a binary64 pattern (30_encoding.md R122). -/
def exponent64 (b : DWord) : Nat := field b 52 11

/-- The fraction field f of a binary64 pattern (30_encoding.md R122). -/
def fraction64 (b : DWord) : Nat := field b 0 52

/-- `finite64(b)`: "holds exactly when e ≠ 0x7FF" (30_encoding.md R122). -/
def finite64 (b : DWord) : Bool := exponent64 b != 0x7FF

/-- `|val64(b)|` (30_encoding.md R122): f · 2^-1074 when e = 0, and (2^52 + f) · 2^(e - 1075) otherwise. -/
def magnitude64 (b : DWord) : Rat :=
  if exponent64 b = 0 then mkRat (fraction64 b) (2 ^ 1074)
  else if exponent64 b < 1075 then mkRat (2 ^ 52 + fraction64 b : Nat) (2 ^ (1075 - exponent64 b))
  else (((2 ^ 52 + fraction64 b) * 2 ^ (exponent64 b - 1075) : Nat) : Rat)

/-- `val64(b)`, the real value of a finite binary64 pattern (30_encoding.md R122); its sign is b[63]. -/
def val64 (b : DWord) : Rat := if flag b 63 then -magnitude64 b else magnitude64 b

/-- `clamp(v, lo, hi)` (00_scope.md R9). -/
def clamp (v lo hi : Int) : Int := if v < lo then lo else if v > hi then hi else v

/-- `rnd_half_up(v) = floor(v + 1/2)` (00_scope.md R11). -/
def rndHalfUp (v : Rat) : Int := (v + 1 / 2).floor

/-- `rnd_half_away(v) = sign(v) · floor(|v| + 1/2)` (00_scope.md R11). -/
def rndHalfAway (v : Rat) : Int :=
  if 0 < v then (v + 1 / 2).floor else if v < 0 then -(-v + 1 / 2).floor else 0

/-- `rnd_half_even(v)`: the integer nearest v, at a tie the even one (00_scope.md R11). -/
def rndHalfEven (v : Rat) : Int :=
  if v - v.floor < 1 / 2 then v.floor
  else if 1 / 2 < v - v.floor then v.floor + 1
  else if v.floor % 2 = 0 then v.floor else v.floor + 1

/-- `wrap_A(s)`: w = s mod 2^A, less 2^A when w[A-1] = 1 (00_scope.md R9, R10). -/
def wrap (a : Nat) (s : Int) : Int :=
  if (s % 2 ^ a).toNat.testBit (a - 1) then s % 2 ^ a - 2 ^ a else s % 2 ^ a

/-- `a >>> s`, the arithmetic right shift: `a div 2^s`, toward negative infinity (00_scope.md R9). -/
def asr (a : Int) (s : Nat) : Int := a / 2 ^ s

/-- The rescale of the wrapped sum: `(a + 2^(F-1)) >>> F`, the bias added exactly (42_convolve.md R208). -/
def rescale (f : Nat) (a : Int) : Int := asr (a + 2 ^ (f - 1)) f

/-- The largest D-bit sample, 2^D - 1 (00_scope.md R7). -/
def sampleMax (d : Nat) : Int := 2 ^ d - 1

/-- The least C-bit coefficient, -2^(C-1) (00_scope.md R7). -/
def coefMin (c : Nat) : Int := -2 ^ (c - 1)

/-- The largest C-bit coefficient, 2^(C-1) - 1 (00_scope.md R7). -/
def coefMax (c : Nat) : Int := 2 ^ (c - 1) - 1

end Sys2Proof.Machine
end

