-- ==== Sys2Proof/Machine/Operands.lean ====
section
/-! DEFINITION. The operand fields of a command (30_encoding.md R114): unsigned fields of the snapshot's registers
(10_state.md R37-R40), and the build constants of PARAM (R34). -/

namespace Sys2Proof.Machine

/-- D = CFG0.DATA_BITS (10_state.md R37). -/
def Snapshot.dataBits (o : Snapshot) : Nat := field o.cfg0 0 8

/-- F = CFG0.FRAC_BITS (10_state.md R37). -/
def Snapshot.fracBits (o : Snapshot) : Nat := field o.cfg0 8 8

/-- A = CFG0.ACC_BITS (10_state.md R37). -/
def Snapshot.accBits (o : Snapshot) : Nat := field o.cfg0 16 8

/-- C = CFG0.COEFF_BITS (10_state.md R37). -/
def Snapshot.coeffBits (o : Snapshot) : Nat := field o.cfg0 24 8

/-- CFG1.MODE = 1, linear; otherwise centered (10_state.md R38). -/
def Snapshot.linear (o : Snapshot) : Bool := flag o.cfg1 0

/-- CFG1.STRICT = 1 (10_state.md R38). -/
def Snapshot.strict (o : Snapshot) : Bool := flag o.cfg1 1

/-- CFG1.QROUND (10_state.md R38). -/
def Snapshot.qround (o : Snapshot) : Nat := field o.cfg1 2 2

/-- CFG1.SFMT = 1, integer samples; otherwise binary64 (10_state.md R38). -/
def Snapshot.intSamples (o : Snapshot) : Bool := flag o.cfg1 4

/-- N = NLEN.N (10_state.md R39). -/
def Snapshot.sampleCount (o : Snapshot) : Nat := field o.nlen 0 16

/-- L = LLEN.L (10_state.md R40). -/
def Snapshot.tapCount (o : Snapshot) : Nat := field o.llen 0 16

/-- NMAX, the depth of RAW_SAMPLE and SAMPLE (10_state.md R34). -/
def State.nmax (s : State) : Nat := field s.param 0 16

/-- LMAX, the depth of RAW_TAP and COEF (10_state.md R34). -/
def State.lmax (s : State) : Nat := field s.param 16 16

/-- The snapshot an acceptance of `w` takes (10_state.md R50). -/
def State.takeSnapshot (w : Word) (s : State) : Snapshot :=
  { word := w, cfg0 := s.cfg0, cfg1 := s.cfg1, nlen := s.nlen, llen := s.llen, progress := 0 }

/-- The operands a command runs on: the snapshot while BUSY (30_encoding.md R111, R114). With the engine IDLE no command
runs and `step` never asks; then these are the registers as they stand (log 9). -/
def State.operands (s : State) : Snapshot :=
  match s.engine with
  | .busy o => o
  | .idle => s.takeSnapshot 0#32

/-- C ∈ {8, 16, 32} (00_scope.md R5). -/
def supportedCoeffWidth (c : Nat) : Bool := c == 8 || c == 16 || c == 32

/-- A rounding function by its QROUND value; 3 is reserved (40_quantize.md R143). -/
def roundingOf : Nat → Option (Rat → Int)
  | 0 => some rndHalfAway
  | 1 => some rndHalfEven
  | 2 => some rndHalfUp
  | _ => none

end Sys2Proof.Machine
end

