-- ==== Sys2Proof/Syntax.lean ====
section
/-! DEFINITION. The command set: one constructor for each row of spec/opcode_table.json (30_encoding.md R113). A
command word has no register, immediate or mode fields (R110), so no constructor has an argument; the operands come
from the registers and memories (R114). -/

namespace Sys2Proof

/-- The three commands (30_encoding.md R113). -/
inductive Instr where
  /-- QUANTIZE, code 0x01 (40_quantize.md R140). -/
  | quantize
  /-- NORMALIZE, code 0x02 (41_normalize.md R170). -/
  | normalize
  /-- CONVOLVE, code 0x03 (42_convolve.md R200). -/
  | convolve
  deriving DecidableEq, Repr

end Sys2Proof
end

