-- ==== Sys2Proof/WellFormed.lean ====
section
/-! DEFINITION. Well-formed terms. A command has no fields (30_encoding.md R110), so every command is well-formed; the
host's transactions are where a term can be ill-formed (20_memory.md R86, R88). -/

namespace Sys2Proof

/-- Every command is well-formed: "A command word has no register, immediate or mode fields" (30_encoding.md R110). -/
def Instr.wellFormed : Instr → Bool
  | .quantize => true
  | .normalize => true
  | .convolve => true

/-- The shape R86 asks of a transaction: aligned, exactly 32 bits, and every byte lane of a write. Whether its offset is
mapped depends on the build, so that check is the machine's (20_memory.md R83). -/
def Machine.Transaction.wellFormed : Machine.Transaction → Bool
  | .read off bits => Machine.aligned off && bits == 32
  | .write off bits lanes _ => Machine.aligned off && bits == 32 && lanes == 0xF#4

end Sys2Proof
end

