-- ==== Sys2Proof/Machine/Ops.lean ====
section
/-! DEFINITION. The named operations over memory and registers: byte and word access, the address map, the entries of
the five memories, taking a command, completing it and raising an error, and how a command's checks are run. -/

namespace Sys2Proof.Machine

/-! ### Bytes and words of the window -/

/-- The byte at a window offset, none where nothing was written since reset (10_state.md R56). -/
def Memory.read : Memory → Nat → Option Byte
  | [], _ => none
  | (b, v) :: m, a => if a = b then some v else Memory.read m a

/-- Store a byte, keeping the addresses strictly rising. -/
def Memory.write : Memory → Nat → Byte → Memory
  | [], a, v => [(a, v)]
  | (b, w) :: m, a, v =>
    if a < b then (a, v) :: (b, w) :: m
    else if a = b then (a, v) :: m
    else (b, w) :: Memory.write m a v

/-- The canonical form: addresses strictly rising. An unlisted byte has no value, so no entry can equal it. -/
def Memory.wf : Memory → Bool
  | [] => true
  | [_] => true
  | (a, _) :: (b, w) :: m => a < b && Memory.wf ((b, w) :: m)

/-- The word at an offset: byte j is bits [8j+7:8j] (20_memory.md R87); none unless all four were written. -/
def Memory.readWord (m : Memory) (a : Nat) : Option Word :=
  match m.read a, m.read (a + 1), m.read (a + 2), m.read (a + 3) with
  | some b0, some b1, some b2, some b3 => some (b3 ++ b2 ++ b1 ++ b0)
  | _, _, _, _ => none

/-- Store a word: byte j is bits [8j+7:8j] (20_memory.md R87). -/
def Memory.writeWord (m : Memory) (a : Nat) (v : Word) : Memory :=
  (((m.write a (v.extractLsb' 0 8)).write (a + 1) (v.extractLsb' 8 8)).write (a + 2) (v.extractLsb' 16 8)).write (a + 3)
    (v.extractLsb' 24 8)

/-- The 64-bit entry at an offset, its low word at the lower address (20_memory.md R82, R87); none unless both halves
were written (10_state.md R56). -/
def Memory.readDWord (m : Memory) (a : Nat) : Option DWord :=
  match m.readWord a, m.readWord (a + 4) with
  | some lo, some hi => some (hi ++ lo)
  | _, _ => none

/-! ### The address map -/

/-- The first offset of a memory (20_memory.md R81, R82). -/
def Region.base : Region → Nat
  | .rawTap => 0x01000
  | .coef => 0x02000
  | .rawSample => 0x08000
  | .sample => 0x10000
  | .out => 0x18000

/-- The bytes of one entry (20_memory.md R81). -/
def Region.entryBytes : Region → Nat
  | .rawTap => 8
  | .coef => 4
  | .rawSample => 8
  | .sample => 4
  | .out => 4

/-- The entries mapped in a build with these depths (20_memory.md R81; OUT: 00_scope.md R6). -/
def Region.entries (nmax lmax : Nat) : Region → Nat
  | .rawTap => lmax
  | .coef => lmax
  | .rawSample => nmax
  | .sample => nmax
  | .out => nmax + lmax - 1

/-- The offset of entry i (20_memory.md R82). -/
def Region.addr (g : Region) (i : Nat) : Nat := g.base + g.entryBytes * i

/-- The offset lies in a mapped entry of the memory (20_memory.md R82, R83). -/
def Region.covers (nmax lmax : Nat) (g : Region) (a : Nat) : Bool :=
  g.base ≤ a && a < g.base + g.entryBytes * g.entries nmax lmax

/-- The memory a window offset lies in (20_memory.md R82, R83). -/
def regionAt (nmax lmax a : Nat) : Option Region :=
  [Region.rawTap, Region.coef, Region.rawSample, Region.sample, Region.out].find? (·.covers nmax lmax a)

/-- The register at a window offset (20_memory.md R80). -/
def regAt : Nat → Option Reg
  | 0x000 => some .id
  | 0x004 => some .param
  | 0x008 => some .cmd
  | 0x00C => some .status
  | 0x010 => some .cfg0
  | 0x014 => some .cfg1
  | 0x018 => some .nlen
  | 0x01C => some .llen
  | 0x020 => some .outlen
  | 0x024 => some .errIdx
  | 0x028 => some .errValLo
  | 0x02C => some .errValHi
  | _ => none

/-- What a mapped offset names: a register, or a word of a memory. -/
inductive Place where
  | reg (r : Reg)
  | mem (g : Region)
  deriving DecidableEq, Repr

/-- What a word-aligned offset names, none where it is unmapped (20_memory.md R83). -/
def placeAt (nmax lmax a : Nat) : Option Place :=
  match regAt a with
  | some r => some (.reg r)
  | none =>
    match regionAt nmax lmax a with
    | some g => some (.mem g)
    | none => none

/-- The window offset of a platform address, none outside the window at FIR_BASE (20_memory.md R81; log 14). -/
def windowOffset (addr : Nat) : Option (BitVec 17) :=
  if Config.firBase ≤ addr ∧ addr < Config.firBase + Config.windowBytes then
    some (BitVec.ofNat 17 (addr - Config.firBase))
  else none

/-! ### Taking a command, completing it, and errors -/

/-- Accepting a word (10_state.md R54, 30_encoding.md R111): the flags are cleared, then the engine is BUSY with the
snapshot. -/
def State.accept (w : Word) (s : State) : State := { s.clearFlags with engine := .busy (s.takeSnapshot w) }

/-- `raise Error(code, idx, val)` (60_exceptions.md R262): the command completes at once with the error recorded, and
nothing else changes. It is the block's only exception; there is no handler, and no return but the next acceptance
(R265). -/
def State.raiseError (e : CommandError) (s : State) : State := (s.recordError e).complete

/-- How a command stops before its writes: an error, which completes it, or a fault of the run. -/
inductive Stop where
  | raise (e : CommandError)
  | fault (f : Fault)
  deriving DecidableEq, Repr

/-- The end of a command's rule: its state with the completion writes, or the error on the state it started from
(60_exceptions.md R262: "No entry of the command's destination memory ... is written"), or the fault. -/
def finish (s : State) : Except Stop State → Host.Outcome State Fault Refusal
  | .ok t => .next t.complete
  | .error (.raise e) => .next (s.raiseError e)
  | .error (.fault f) => .fault f

/-- One check of a command's pseudocode: go on if it holds, raise the error if not. -/
def require (holds : Bool) (e : CommandError) : Except Stop Unit :=
  if holds then .ok () else .error (.raise e)

/-- `for i in k .. k+n-1`, upward, collecting results and stopping at the first stop. -/
def scan {α : Type} (f : Nat → Except Stop α) : Nat → Nat → Except Stop (List α)
  | _, 0 => .ok []
  | k, n + 1 =>
    match f k with
    | .error e => .error e
    | .ok a =>
      match scan f (k + 1) n with
      | .error e => .error e
      | .ok as => .ok (a :: as)

/-! ### Entries -/

/-- A 32-bit entry as a command consumes it; one never written is a fault (10_state.md R56). -/
def State.entryWord (s : State) (g : Region) (i : Nat) : Except Stop Word :=
  match s.mem.readWord (g.addr i) with
  | some v => .ok v
  | none => .error (.fault (.neverWritten g i))

/-- A 64-bit entry as a command consumes it; "both 32-bit halves must have been written" (10_state.md R56). -/
def State.entryDWord (s : State) (g : Region) (i : Nat) : Except Stop DWord :=
  match s.mem.readDWord (g.addr i) with
  | some v => .ok v
  | none => .error (.fault (.neverWritten g i))

/-- Store words in the entries k, k+1, ... of a memory of 32-bit entries. -/
def Memory.writeEntries (g : Region) : Nat → List Word → Memory → Memory
  | _, [], m => m
  | k, v :: vs, m => Memory.writeEntries g (k + 1) vs (m.writeWord (g.addr k) v)

/-! ### Checks and errors the commands share -/

/-- The width check of DATA_BITS (00_scope.md R5, 60_exceptions.md R264). -/
def checkDataBits (d : Nat) : Except Stop Unit :=
  require (1 ≤ d && d ≤ Config.maxDataBits) { code := .invalidBitWidth, idx := 0, val := zext64 d }

/-- The width check of FRAC_BITS (00_scope.md R5, 60_exceptions.md R264). -/
def checkFracBits (f : Nat) : Except Stop Unit :=
  require (1 ≤ f && f ≤ Config.maxFracBits) { code := .invalidBitWidth, idx := 1, val := zext64 f }

/-- The width check of ACC_BITS (00_scope.md R5, 60_exceptions.md R264). -/
def checkAccBits (a : Nat) : Except Stop Unit :=
  require (1 ≤ a && a ≤ Config.maxAccBits) { code := .invalidBitWidth, idx := 2, val := zext64 a }

/-- The check of COEFF_BITS (60_exceptions.md R251, R264). -/
def checkCoeffBits (c : Nat) : Except Stop Unit :=
  require (supportedCoeffWidth c) { code := .unsupportedCoeffWidth, idx := 0, val := zext64 c }

/-- L = 0 raises EmptyFilter (60_exceptions.md R250, R264). -/
def checkNotEmpty (l : Nat) : Except Stop Unit :=
  require (l != 0) { code := .emptyFilter, idx := 0, val := 0#64 }

/-- N > NMAX raises LengthOutOfRange (60_exceptions.md R250, R264). -/
def checkSampleCount (n nmax : Nat) : Except Stop Unit :=
  require (n ≤ nmax) { code := .lengthOutOfRange, idx := 0, val := zext64 n }

/-- L > LMAX raises LengthOutOfRange (60_exceptions.md R250, R264). -/
def checkTapCount (l lmax : Nat) : Except Stop Unit :=
  require (l ≤ lmax) { code := .lengthOutOfRange, idx := 1, val := zext64 l }

end Sys2Proof.Machine
end

