-- ==== Sys2Proof/Machine/Bus.lean ====
section
/-! DEFINITION. The host's transactions (20_memory.md R84-R86), a passing cycle and reset. -/

namespace Sys2Proof.Machine

/-- The bus check (20_memory.md R86): the place a good transaction names, or the bus error. Where several of R86's
conditions hold, the first in its order names the fault (log 3). -/
def busCheck (off : BitVec 17) (bits : Nat) (lanes : BitVec 4) (s : State) : Except Fault Place :=
  if !aligned off then .error (.busMisaligned off)
  else if bits < 32 then .error (.busNarrow off)
  else if lanes ≠ 0xF#4 then .error (.busPartialLanes off)
  else if 32 < bits then .error (.busWide off)
  else
    match placeAt s.nmax s.lmax off.toNat with
    | none => .error (.busUnmapped off)
    | some p => .ok p

/-- The value a register reads as (10_state.md R33-R43). -/
def regValue (s : State) : Reg → Word
  | .id => Config.idValue
  | .param => s.param
  | .cmd => 0#32
  | .status => s.statusWord
  | .cfg0 => s.cfg0
  | .cfg1 => s.cfg1
  | .nlen => s.nlen
  | .llen => s.llen
  | .outlen => s.outlen
  | .errIdx => s.errIdx
  | .errValLo => s.errValLo
  | .errValHi => s.errValHi

/-- Answer a transaction. -/
def State.respond (r : BusResponse) (s : State) : State := { s with response := some r }

/-- Answer a read with a value the spec leaves unspecified (10_state.md R53, R56; log 6). -/
def State.respondFree (s : State) : State :=
  { s with response := some (.data (Config.freeWord s.draws)), draws := s.draws + 1 }

/-- A read of a register. The reserved code 7 in STATUS is refused (93_implementation_defined.md V5; log 10). -/
def readReg (r : Reg) (s : State) : Host.Outcome State Fault Refusal :=
  if r = .status && s.errCode = .shapeMismatch then .refused .reservedErrorCode
  else .next (s.respond (.data (regValue s r)))

/-- A read of a memory word: unspecified while BUSY (10_state.md R53) or where never written (R56), otherwise the 32 bits
at that offset (20_memory.md R84). -/
def readMem (off : BitVec 17) (s : State) : Host.Outcome State Fault Refusal :=
  if s.isBusy then .next s.respondFree
  else
    match s.mem.readWord off.toNat with
    | some v => .next (s.respond (.data v))
    | none => .next s.respondFree

/-- `ReadWord` (20_memory.md R84). -/
def busRead (off : BitVec 17) (bits : Nat) (s : State) : Host.Outcome State Fault Refusal :=
  match busCheck off bits 0xF#4 s with
  | .error f => .fault f
  | .ok (.reg r) => readReg r s
  | .ok (.mem _) => readMem off s

/-- A write of an IDLE block's register (20_memory.md R85): CMD offers a command, an RW register takes the word with its
reserved bits 0 (10_state.md R37-R40, R44), an RO register is left alone. -/
def writeReg (v : Word) (s : State) : Reg → State
  | .id => s
  | .param => s
  | .cmd => s.accept v
  | .status => s
  | .cfg0 => { s with cfg0 := v }
  | .cfg1 => { s with cfg1 := v &&& 0x0000001F#32 }
  | .nlen => { s with nlen := v &&& 0x0000FFFF#32 }
  | .llen => { s with llen := v &&& 0x0000FFFF#32 }
  | .outlen => s
  | .errIdx => s
  | .errValLo => s
  | .errValHi => s

/-- A write of an IDLE block's memory word; OUT is RO (20_memory.md R85). -/
def writeMem (off : BitVec 17) (v : Word) (s : State) : Region → State
  | .rawTap => { s with mem := s.mem.writeWord off.toNat v }
  | .coef => { s with mem := s.mem.writeWord off.toNat v }
  | .rawSample => { s with mem := s.mem.writeWord off.toNat v }
  | .sample => { s with mem := s.mem.writeWord off.toNat v }
  | .out => s

/-- A write of an IDLE block (20_memory.md R85). -/
def writePlace (off : BitVec 17) (v : Word) (s : State) : Place → State
  | .reg r => writeReg v s r
  | .mem g => writeMem off v s g

/-- `WriteWord` (20_memory.md R85). While BUSY the write is dropped with an OK response (10_state.md R52), which the model
marks (70_reset_and_hazards.md R303). -/
def busWrite (off : BitVec 17) (bits : Nat) (lanes : BitVec 4) (v : Word) (s : State) : Host.Outcome State Fault Refusal :=
  match busCheck off bits lanes s with
  | .error f => .fault f
  | .ok p => if s.isBusy then .next (s.respond .okDropped) else .next ((writePlace off v s p).respond .ok)

/-- One host transaction. -/
def transact (t : Transaction) (s : State) : Host.Outcome State Fault Refusal :=
  match t with
  | .read off bits => busRead off bits s
  | .write off bits lanes v => busWrite off bits lanes v s

/-- A clock cycle that does not complete the command (70_reset_and_hazards.md R309; log 13). -/
def passCycle (s : State) : State :=
  match s.engine with
  | .idle => s
  | .busy o => { s with engine := .busy { o with progress := o.progress + 1 } }

/-- Reset asserted and released (70_reset_and_hazards.md R290-R292): the registers take their reset values, a BUSY command
is abandoned, and the five memories are as never written (R291: "a model must not assume they kept them"). The build
constants stay (10_state.md R34), and so do the inputs still to come and the count of free values (log 12). -/
def resetBlock (s : State) : State :=
  { State.reset with param := s.param, pending := s.pending, draws := s.draws }

end Sys2Proof.Machine
end

