-- ==== Sys2Proof/Decode.lean ====
section
/-! DEFINITION. Decoding a command word, total on every word and rejecting by name (30_encoding.md R110-R113), and
after it the encoder. -/

namespace Sys2Proof

/-- Why a word is no command (30_encoding.md R112). -/
inductive IllegalWord where
  /-- v[31:8] is not 0. -/
  | reservedBits
  /-- v[31:8] = 0 and v[7:0] is none of 0x01, 0x02 and 0x03. -/
  | unknownCode
  deriving DecidableEq, Repr

/-- OP, bits [7:0] of a command word (30_encoding.md R110). -/
def opField (v : Word) : BitVec 8 := v.extractLsb' 0 8

/-- RSV, bits [31:8] of a command word (30_encoding.md R110). -/
def rsvField (v : Word) : BitVec 24 := v.extractLsb' 8 24

/-- The command a word stands for, or why it is illegal (30_encoding.md R112, R113). -/
def decode (v : Word) : Except IllegalWord Instr :=
  if rsvField v ≠ 0#24 then .error .reservedBits
  else if opField v = 0x01#8 then .ok .quantize
  else if opField v = 0x02#8 then .ok .normalize
  else if opField v = 0x03#8 then .ok .convolve
  else .error .unknownCode

/-- The command code of a command (30_encoding.md R113). -/
def opCode : Instr → BitVec 8
  | .quantize => 0x01#8
  | .normalize => 0x02#8
  | .convolve => 0x03#8

/-- The command word of a command: RSV = 0 above its code (30_encoding.md R110). -/
def encode (i : Instr) : Word := 0#24 ++ opCode i

/-- The command word made of an opcode-table row's bits: `nbits` bits of `w`, every bit above them 0. -/
def tableWord (nbits w : Nat) : Nat := w % 2 ^ nbits

/-- What the decoder reads from a table row's bits; a number that does not fit the one command length of 32 bits
(30_encoding.md R115) is no command word. -/
def decodeTableWord (nbits w : Nat) : Option Instr :=
  if tableWord nbits w < 2 ^ 32 then (decode (BitVec.ofNat 32 (tableWord nbits w))).toOption else none

end Sys2Proof
end

