-- ==== Sys2Proof/Machine/Convolve.lean ====
section
/-! DEFINITION. CONVOLVE (42_convolve.md R200-R215). -/

namespace Sys2Proof.Machine

/-- q[k], in the C-bit range (42_convolve.md R203). -/
def rangedCoef (c : Nat) (s : State) (k : Nat) : Except Stop Int := do
  let v ← s.entryWord .coef k
  require (decide (coefMin c ≤ v.toInt) && decide (v.toInt ≤ coefMax c))
    { code := .qCoefOutOfRange, idx := k, val := BitVec.ofInt 64 v.toInt }
  return v.toInt

/-- x[i], in the D-bit range (42_convolve.md R204). -/
def rangedSample (d : Nat) (s : State) (i : Nat) : Except Stop Int := do
  let v ← s.entryWord .sample i
  require (decide ((v.toNat : Int) ≤ sampleMax d)) { code := .sampleOutOfRange, idx := i, val := zext64 v.toNat }
  return (v.toNat : Int)

/-- x[idx], zero outside [0, N): "zero-padding at the boundary — never circular wraparound" (42_convolve.md R202). -/
def paddedSample (x : List Int) (idx : Int) : Int :=
  if 0 ≤ idx ∧ idx < x.length then x.getD idx.toNat 0 else 0

/-- The MAC steps for taps k, k+1, ... from a running sum (42_convolve.md R201, R205). -/
def macFrom (x : List Int) (n c : Int) : Nat → List Int → Int → Int
  | _, [], acc => acc
  | k, q :: qs, acc => macFrom x n c (k + 1) qs (acc + q * paddedSample x (n - k + c))

/-- The full tap sum s of output index n; the accumulator starts at 0 (42_convolve.md R205). -/
def tapSum (q x : List Int) (c n : Nat) : Int := macFrom x n c 0 q 0

/-- The same MAC steps on a hardware accumulator that is reduced to A bits after each product (10_state.md R51,
42_convolve.md R206). The block's result is defined by `tapSum` and one wrap at the end; R206 says the two agree. -/
def macWrappedFrom (a : Nat) (x : List Int) (n c : Int) : Nat → List Int → Int → Int
  | _, [], acc => acc
  | k, q :: qs, acc => macWrappedFrom a x n c (k + 1) qs (wrap a (acc + q * paddedSample x (n - k + c)))

/-- Wrap, rescale and saturate a tap sum (42_convolve.md R206, R208, R209). -/
def outputOf (d f a : Nat) (sum : Int) : Int := clamp (rescale f (wrap a sum)) 0 (sampleMax d)

/-- The kernel's offset c: L div 2 centered, 0 linear (42_convolve.md R201, R207). -/
def kernelCenter (linear : Bool) (l : Nat) : Nat := if linear then 0 else l / 2

/-- Nout: N centered; N + L - 1 linear, 0 when N = 0 (42_convolve.md R201, R207). -/
def outputCount (linear : Bool) (n l : Nat) : Nat :=
  if linear then (if n = 0 then 0 else n + l - 1) else n

/-- OUT[n] as the word stored (42_convolve.md R200). -/
def outputWord (o : Snapshot) (q x : List Int) (n : Nat) : Word :=
  BitVec.ofInt 32
    (outputOf o.dataBits o.fracBits o.accBits (tapSum q x (kernelCenter o.linear o.tapCount) n))

/-- The configuration checks of CONVOLVE, in their order (42_convolve.md R200). -/
def convolveConfig (o : Snapshot) (nmax lmax : Nat) : Except Stop Unit := do
  checkDataBits o.dataBits
  checkFracBits o.fracBits
  checkAccBits o.accBits
  checkCoeffBits o.coeffBits
  checkNotEmpty o.tapCount
  checkSampleCount o.sampleCount nmax
  checkTapCount o.tapCount lmax

/-- The words CONVOLVE stores in OUT[0..Nout), or how it stops before it stores any (42_convolve.md R200). -/
def convolvedWords (s : State) : Except Stop (List Word) := do
  convolveConfig s.operands s.nmax s.lmax
  let q ← scan (rangedCoef s.operands.coeffBits s) 0 s.operands.tapCount
  let x ← scan (rangedSample s.operands.dataBits s) 0 s.operands.sampleCount
  return (List.range (outputCount s.operands.linear s.operands.sampleCount s.operands.tapCount)).map
    (outputWord s.operands q x)

/-- What is left in the accumulator: nothing new when no output index was computed, otherwise a free value (log 8). -/
def leaveAccumulator (outputs : Nat) (s : State) : State :=
  if outputs = 0 then s else { s with acc := Config.freeAccumulator s.draws, draws := s.draws + 1 }

/-- The state CONVOLVE leaves before its completion writes (42_convolve.md R212). -/
def convolved (s : State) : Except Stop State := do
  let ws ← convolvedWords s
  return leaveAccumulator ws.length
    { s with mem := s.mem.writeEntries .out 0 ws, outlen := BitVec.ofNat 32 ws.length }

/-- CONVOLVE (42_convolve.md R200). -/
def execConvolve (s : State) : Host.Outcome State Fault Refusal := finish s (convolved s)

end Sys2Proof.Machine
end

