-- ==== Sys2Proof/Machine/Normalize.lean ====
section
/-! DEFINITION. NORMALIZE (41_normalize.md R170-R178). -/

namespace Sys2Proof.Machine

/-- RAW_SAMPLE[i] read and, when it is a binary64 pattern, checked for finiteness (41_normalize.md R170, R173; an
integer sample "is always finite", 30_encoding.md R124). -/
def finiteSample (intSamples : Bool) (s : State) (i : Nat) : Except Stop DWord := do
  let b ← s.entryDWord .rawSample i
  require (intSamples || finite64 b) { code := .nonFiniteSample, idx := i, val := b }
  return b

/-- The real value of a raw sample (30_encoding.md R122, R124). -/
def sampleValue (intSamples : Bool) (b : DWord) : Rat := if intSamples then (b.toInt : Rat) else val64 b

/-- Round half up and clamp one sample into [0, 2^D - 1] (41_normalize.md R171, R172). -/
def normalizeSample (intSamples : Bool) (d : Nat) (b : DWord) : Word :=
  BitVec.ofInt 32 (clamp (rndHalfUp (sampleValue intSamples b)) 0 (sampleMax d))

/-- The configuration checks of NORMALIZE, in their order (41_normalize.md R170). -/
def normalizeConfig (o : Snapshot) (nmax : Nat) : Except Stop Unit := do
  checkDataBits o.dataBits
  checkSampleCount o.sampleCount nmax

/-- The words NORMALIZE stores in SAMPLE[0..N), or how it stops before it stores any (41_normalize.md R170). -/
def normalizedWords (s : State) : Except Stop (List Word) := do
  normalizeConfig s.operands s.nmax
  let raw ← scan (finiteSample s.operands.intSamples s) 0 s.operands.sampleCount
  return raw.map (normalizeSample s.operands.intSamples s.operands.dataBits)

/-- The state NORMALIZE leaves before its completion writes (41_normalize.md R176). -/
def normalized (s : State) : Except Stop State := do
  let ws ← normalizedWords s
  return { s with mem := s.mem.writeEntries .sample 0 ws }

/-- NORMALIZE (41_normalize.md R170). -/
def execNormalize (s : State) : Host.Outcome State Fault Refusal := finish s (normalized s)

end Sys2Proof.Machine
end

