-- ==== Sys2Proof/Machine/Quantize.lean ====
section
/-! DEFINITION. QUANTIZE (40_quantize.md R140-R149). -/

namespace Sys2Proof.Machine

/-- RAW_TAP[k] in pass 1, the finiteness pass (40_quantize.md R140). -/
def finiteTap (s : State) (k : Nat) : Except Stop DWord := do
  let b ← s.entryDWord .rawTap k
  require (finite64 b) { code := .nonFiniteCoefficient, idx := k, val := b }
  return b

/-- A finite tap t is accepted exactly when lo/2^F ≤ t ≤ hi/2^F (40_quantize.md R141). -/
def tapInRange (c f : Nat) (b : DWord) : Bool :=
  decide ((coefMin c : Rat) / (2 ^ f : Nat) ≤ val64 b) && decide (val64 b ≤ (coefMax c : Rat) / (2 ^ f : Nat))

/-- RAW_TAP[k] in pass 2, the strict range pass (40_quantize.md R140, R141). -/
def rangedTap (c f : Nat) (s : State) (k : Nat) : Except Stop Unit := do
  let b ← s.entryDWord .rawTap k
  require (tapInRange c f b) { code := .coefficientOutOfRange, idx := k, val := b }

/-- Scale, round and clamp one tap (40_quantize.md R142-R144), as `trunc_32` of the result. -/
def quantizeTap (rnd : Rat → Int) (c f : Nat) (b : DWord) : Word :=
  BitVec.ofInt 32 (clamp (rnd (val64 b * (2 ^ f : Nat))) (coefMin c) (coefMax c))

/-- The check of QROUND: 3 is reserved (40_quantize.md R140, R143). -/
def checkRounding (q : Nat) : Except Stop (Rat → Int) :=
  match roundingOf q with
  | some rnd => .ok rnd
  | none => .error (.raise { code := .invalidConfig, idx := 0, val := 3#64 })

/-- The configuration checks of QUANTIZE, in their order, giving the rounding function (40_quantize.md R140). -/
def quantizeConfig (o : Snapshot) (lmax : Nat) : Except Stop (Rat → Int) := do
  checkFracBits o.fracBits
  checkCoeffBits o.coeffBits
  let rnd ← checkRounding o.qround
  checkNotEmpty o.tapCount
  checkTapCount o.tapCount lmax
  return rnd

/-- The words QUANTIZE stores in COEF[0..L), or how it stops before it stores any (40_quantize.md R140). -/
def quantizedWords (s : State) : Except Stop (List Word) := do
  let rnd ← quantizeConfig s.operands s.lmax
  let taps ← scan (finiteTap s) 0 s.operands.tapCount
  let _ ← scan (rangedTap s.operands.coeffBits s.operands.fracBits s) 0 (if s.operands.strict then s.operands.tapCount else 0)
  return taps.map (quantizeTap rnd s.operands.coeffBits s.operands.fracBits)

/-- The state QUANTIZE leaves before its completion writes (40_quantize.md R146). -/
def quantized (s : State) : Except Stop State := do
  let ws ← quantizedWords s
  return { s with mem := s.mem.writeEntries .coef 0 ws }

/-- QUANTIZE (40_quantize.md R140). -/
def execQuantize (s : State) : Host.Outcome State Fault Refusal := finish s (quantized s)

end Sys2Proof.Machine
end

