-- ==== Sys2Proof/Machine/Dispatch.lean ====
section
/-! DEFINITION. The command dispatch (30_encoding.md R111, R113). -/

namespace Sys2Proof.Machine

def exec (i : Instr) (s : State) : Host.Outcome State Fault Refusal :=
  match i with
  | .quantize => Sys2Proof.Machine.execQuantize s
  | .normalize => Sys2Proof.Machine.execNormalize s
  | .convolve => Sys2Proof.Machine.execConvolve s

end Sys2Proof.Machine
end

