-- ==== Sys2Proof/Machine/Engine.lean ====
section
/-! DEFINITION. The engine's one step for an accepted command, and what each input does. -/

namespace Sys2Proof.Machine

/-- An illegal word's error: `raise Error(IllegalCommand, 0, zext_64(v))` (30_encoding.md R112). -/
def illegalCommand (v : Word) : CommandError := { code := .illegalCommand, idx := 0, val := v.setWidth 64 }

/-- Decode an accepted word and run it (30_encoding.md R111, R112). -/
def runWord (v : Word) (s : State) : Host.Outcome State Fault Refusal :=
  match decode v with
  | .ok i => exec i s
  | .error _ => .next (s.raiseError (illegalCommand v))

/-- The engine's turn: it completes the accepted command in one step (20_memory.md R92, 70_reset_and_hazards.md R311); an
IDLE engine waits for a command (R290). -/
def engineTurn (s : State) : Host.Outcome State Fault Refusal :=
  match s.engine with
  | .idle => .next s
  | .busy o => runWord o.word s

/-- What one input does. -/
def handle (e : Event) (s : State) : Host.Outcome State Fault Refusal :=
  match e with
  | .bus t => transact t s
  | .cycle => .next (passCycle s)
  | .engine => engineTurn s
  | .reset => .next (resetBlock s)

end Sys2Proof.Machine
end

