-- ==== Sys2Proof/Machine/Step.lean ====
section
/-! DEFINITION. The step, and how a command word is put where the next step runs it. -/

namespace Sys2Proof.Machine

/-- One step: the next input is handled; when none is left the engine takes its turn, which is R310's progress ("every
accepted command completes after finitely many cycles unless reset intervenes"; log 1). -/
def step (s : State) : Host.Outcome State Fault Refusal :=
  match s.pending with
  | [] => engineTurn s
  | e :: rest => handle e { s with pending := rest }

/-- `s` with a command word accepted and the engine's turn next. The block fetches no instructions (10_state.md R32): a
word becomes the next command by a host write to CMD while IDLE (30_encoding.md R111), and the very next step runs it.
This stands for that write (log 2). -/
def State.withFetchWord (s : State) (nbits w : Nat) : State :=
  { s.accept (BitVec.ofNat 32 (tableWord nbits w)) with pending := .engine :: s.pending }

end Sys2Proof.Machine
end

