-- ==== Sys2Proof/Machine/HostScript.lean ====
section
/-! DEFINITION. The host's own notation (30_encoding.md R116): what each pseudo-instruction expands to, as bus
transactions. The host's program, with its loops, runs outside the block (R117), so nothing in the machine calls these;
of POLL there is the transaction it repeats and the test that ends it (log 18). -/

namespace Sys2Proof.Machine

/-- `WR64 off, b`: the low word at off, then the high word at off + 4 (30_encoding.md R116). -/
def wr64 (off : BitVec 17) (b : DWord) : List Transaction :=
  [writeWordAt off (b.extractLsb' 0 32), writeWordAt (off + 4#17) (b.extractLsb' 32 32)]

/-- `SETCFG d, f, a, c` (30_encoding.md R116). -/
def setCfg (d f a c : BitVec 8) : List Transaction := [writeWordAt 0x010#17 (c ++ a ++ f ++ d)]

/-- `SETMODE mode, strict, qround, sfmt`, in bits [4:0] (30_encoding.md R116). -/
def setMode (mode strict : Bool) (qround : BitVec 2) (sfmt : Bool) : List Transaction :=
  [writeWordAt 0x014#17 (0#27 ++ BitVec.ofBool sfmt ++ qround ++ BitVec.ofBool strict ++ BitVec.ofBool mode)]

/-- The write that begins `QUANTIZE`, `NORMALIZE` and `CONVOLVE`; a POLL follows it (30_encoding.md R116). -/
def startCommand (i : Instr) : List Transaction := [writeWordAt 0x008#17 (encode i)]

/-- The read that `POLL` repeats (30_encoding.md R116). -/
def pollRead : Transaction := readWordAt 0x00C#17

/-- `POLL` goes on while bit 0 of what it read, BUSY, is 1 (30_encoding.md R116). -/
def pollAgain : BusResponse → Bool
  | .data v => v.getLsbD 0
  | .ok => false
  | .okDropped => false

end Sys2Proof.Machine
end

