-- ==== Sys2Proof/Machine/Ideal.lean ====
section
/-! DEFINITION. The ideal convolution (42_convolve.md R230, R231): a REFERENCE FUNCTION over exact reals, "defined for
comparison only. The block does not compute it, and no command or register reaches it" (R230, 00_scope.md R4). Nothing
in the machine calls it (log 16). -/

namespace Sys2Proof.Machine

/-- xv(i): the sample at i, zero outside [0, N) (42_convolve.md R230). -/
def idealSample (x : List Rat) (idx : Int) : Rat :=
  if 0 ≤ idx ∧ idx < x.length then x.getD idx.toNat 0 else 0

/-- The real sum over taps k, k+1, ... of h[k] · xv(n - k + c) (42_convolve.md R230). -/
def idealFrom (x : List Rat) (n c : Int) : Nat → List Rat → Rat
  | _, [] => 0
  | k, h :: hs => h * idealSample x (n - k + c) + idealFrom x n c (k + 1) hs

/-- The outputs in centered mode, n in [0, N), of taps that passed `idealChecks` (42_convolve.md R230): no quantization,
rescale or saturation. -/
def idealCentered (h x : List Rat) : List Rat :=
  (List.range x.length).map fun n : Nat => idealFrom x n (kernelCenter false h.length) 0 h

/-- The outputs of the linear variant, n in [0, N + L - 1) with idx = n - k, on un-clamped real samples
(42_convolve.md R231). N = 0 is no exception here: that one is CONVOLVE's (R207). -/
def idealLinear (h x : List Rat) : List Rat :=
  (List.range (x.length + h.length - 1)).map fun n : Nat => idealFrom x n 0 0 h

/-- The ideal function's validation of its raw taps: EmptyFilter, NonFiniteCoefficient and, in strict mode,
CoefficientOutOfRange, in QUANTIZE's order (42_convolve.md R231). -/
def idealChecks (strict : Bool) (c f : Nat) (taps : List DWord) : Except Stop Unit := do
  checkNotEmpty taps.length
  let _ ← scan (fun k => require (finite64 (taps.getD k 0#64))
    { code := .nonFiniteCoefficient, idx := k, val := taps.getD k 0#64 }) 0 taps.length
  let _ ← scan (fun k => require (tapInRange c f (taps.getD k 0#64))
    { code := .coefficientOutOfRange, idx := k, val := taps.getD k 0#64 }) 0 (if strict then taps.length else 0)
  return ()

/-- `convolve_ideal(x, h)` on raw taps (42_convolve.md R230), and its linear variant (R231): the taps are validated, then
every output is summed. -/
def convolveIdeal (linear strict : Bool) (c f : Nat) (taps : List DWord) (x : List Rat) : Except Stop (List Rat) := do
  idealChecks strict c f taps
  return if linear then idealLinear (taps.map val64) x else idealCentered (taps.map val64) x

end Sys2Proof.Machine
end

