-- ==== Sys2Proof/Safety.lean ====
section
/-! DEFINITION. The terms the claims are stated in: the invariant of the machine, when a command runs without error,
what an error leaves, and runs over a list of inputs. -/

namespace Sys2Proof.Machine

/-- Running a list of inputs, first to last. -/
def runEvents : List Event → State → Host.Outcome State Fault Refusal
  | [], s => .next s
  | e :: es, s =>
    match handle e s with
    | .next t => runEvents es t
    | .fault f => .fault f
    | .refused r => .refused r

/-- Running a host script: its transactions, one after another. -/
def runScript (ts : List Transaction) (s : State) : Host.Outcome State Fault Refusal := runEvents (ts.map Event.bus) s

/-- The state an errored command leaves: `s` with the completion and error writes and nothing else
(10_state.md R55, 60_exceptions.md R262). -/
def State.withError (s : State) (code : ErrorCode) (idx : Nat) (val : DWord) : State :=
  { s with
    engine := .idle, done := true, err := true, errCode := code, errIdx := BitVec.ofNat 32 idx, errVal := val }

/-- The build's depths are legal (00_scope.md R5). -/
structure State.LegalBuild (s : State) : Prop where
  nmaxPos : 1 ≤ s.nmax
  nmaxLe : s.nmax ≤ 4096
  lmaxPos : 1 ≤ s.lmax
  lmaxLe : s.lmax ≤ 512

/-- The memories hold what the bus and the engine can put there. -/
structure Memory.Sound (nmax lmax : Nat) (m : Memory) : Prop where
  /-- The canonical form. -/
  sorted : m.wf = true
  /-- Every stored byte lies in a mapped entry (20_memory.md R82, R83). -/
  placed : ∀ a, m.read a ≠ none → regionAt nmax lmax a ≠ none
  /-- Bytes come in whole aligned words, since every access is one (20_memory.md R86, R89). -/
  wholeWords : ∀ a, m.read a ≠ none → m.readWord (a / 4 * 4) ≠ none
  /-- An OUT entry is a value of at most 16 bits, zero-extended (10_state.md R49, 30_encoding.md R121). -/
  outNarrow : ∀ a v, Region.out.base ≤ a → a % 4 = 0 → m.readWord a = some v → v.toNat < 2 ^ Config.maxDataBits

/-- STATUS and the error registers agree with one another and with the engine (10_state.md R36, R42, R43, R54, R55,
60_exceptions.md R250, R252). -/
structure State.FlagsAgree (s : State) : Prop where
  busyNotDone : s.isBusy = true → s.done = false
  errDone : s.err = true → s.done = true
  errCoded : s.err = true → s.errCode ≠ .noError
  noErrNoCode : s.err = false → s.errCode = .noError
  noErrIdx : s.err = false → s.errIdx = 0#32
  noErrVal : s.err = false → s.errVal = 0#64
  notReserved : s.errCode ≠ .shapeMismatch

/-- While BUSY the snapshot is still the registers' value, since no write reaches them (10_state.md R50, R52). -/
structure State.SnapshotAgrees (s : State) : Prop where
  cfg0 : ∀ o, s.engine = .busy o → o.cfg0 = s.cfg0
  cfg1 : ∀ o, s.engine = .busy o → o.cfg1 = s.cfg1
  nlen : ∀ o, s.engine = .busy o → o.nlen = s.nlen
  llen : ∀ o, s.engine = .busy o → o.llen = s.llen

/-- The reserved bits of the RW registers are 0 (10_state.md R38-R40, R44). -/
structure State.ReservedZero (s : State) : Prop where
  cfg1 : s.cfg1.extractLsb' 5 27 = 0#27
  nlen : s.nlen.extractLsb' 16 16 = 0#16
  llen : s.llen.extractLsb' 16 16 = 0#16

/-- The invariant every step keeps. -/
structure State.Inv (s : State) : Prop where
  build : s.LegalBuild
  memory : s.mem.Sound s.nmax s.lmax
  flags : s.FlagsAgree
  snapshot : s.SnapshotAgrees
  reserved : s.ReservedZero
  outlenLe : s.outlen.toNat ≤ s.nmax + s.lmax - 1

/-- The widths and lengths QUANTIZE checks are legal (40_quantize.md R140). -/
structure State.QuantizeLegal (s : State) : Prop where
  frac : 1 ≤ s.operands.fracBits ∧ s.operands.fracBits ≤ 63
  coeff : s.operands.coeffBits = 8 ∨ s.operands.coeffBits = 16 ∨ s.operands.coeffBits = 32
  rounding : s.operands.qround ≠ 3
  taps : 1 ≤ s.operands.tapCount ∧ s.operands.tapCount ≤ s.lmax

/-- The widths and lengths NORMALIZE checks are legal (41_normalize.md R170). -/
structure State.NormalizeLegal (s : State) : Prop where
  data : 1 ≤ s.operands.dataBits ∧ s.operands.dataBits ≤ 16
  samples : s.operands.sampleCount ≤ s.nmax

/-- The widths and lengths CONVOLVE checks are legal (42_convolve.md R200). -/
structure State.ConvolveLegal (s : State) : Prop where
  data : 1 ≤ s.operands.dataBits ∧ s.operands.dataBits ≤ 16
  frac : 1 ≤ s.operands.fracBits ∧ s.operands.fracBits ≤ 63
  accum : 1 ≤ s.operands.accBits ∧ s.operands.accBits ≤ 64
  coeff : s.operands.coeffBits = 8 ∨ s.operands.coeffBits = 16 ∨ s.operands.coeffBits = 32
  taps : 1 ≤ s.operands.tapCount ∧ s.operands.tapCount ≤ s.lmax
  samples : s.operands.sampleCount ≤ s.nmax

/-- RAW_TAP[k] holds the pattern b. -/
def State.rawTapIs (s : State) (k : Nat) (b : DWord) : Prop := s.mem.readDWord (0x01000 + 8 * k) = some b

/-- RAW_SAMPLE[i] holds the pattern b. -/
def State.rawSampleIs (s : State) (i : Nat) (b : DWord) : Prop := s.mem.readDWord (0x08000 + 8 * i) = some b

/-- COEF[k] holds the word v. -/
def State.coefIs (s : State) (k : Nat) (v : Word) : Prop := s.mem.readWord (0x02000 + 4 * k) = some v

/-- SAMPLE[i] holds the word v. -/
def State.sampleIs (s : State) (i : Nat) (v : Word) : Prop := s.mem.readWord (0x10000 + 4 * i) = some v

/-- OUT[m] holds the word v. -/
def State.outIs (s : State) (m : Nat) (v : Word) : Prop := s.mem.readWord (0x18000 + 4 * m) = some v

/-- The strict range of a tap (40_quantize.md R141): −2^(C−1)/2^F ≤ t ≤ (2^(C−1)−1)/2^F. -/
def TapAccepted (c f : Nat) (b : DWord) : Prop :=
  (-2 ^ (c - 1) : Rat) / 2 ^ f ≤ val64 b ∧ val64 b ≤ (2 ^ (c - 1) - 1 : Rat) / 2 ^ f

/-- r is v rounded to an integer under QROUND = q (00_scope.md R11, 40_quantize.md R143), said with the spec's own
formulas: sign(v) · floor(|v| + 1/2); nearest, at a tie the even one; floor(v + 1/2). -/
def IsRounded (q : Nat) (v : Rat) (r : Int) : Prop :=
  (q = 0 → r = (SignType.sign v : Int) * ⌊|v| + 1 / 2⌋) ∧
  (q = 1 → |v - r| ≤ 1 / 2 ∧ (|v - r| = 1 / 2 → Even r)) ∧
  (q = 2 → r = ⌊v + 1 / 2⌋) ∧ q ≤ 2

/-- The part of a state a host can ever learn about, the open inputs and the model's own fields set aside: what must not
depend on how long a command took or on what was tried while it ran. -/
def State.visible (s : State) : State := { s with pending := [], response := none, draws := 0, acc := 0#64 }

/-- Two outcomes that a host cannot tell apart: visibly equal next states, or the same fault. -/
def SameOutcome (x y : Host.Outcome State Fault Refusal) : Prop :=
  (∃ t u, x = .next t ∧ y = .next u ∧ t.visible = u.visible) ∨ (∃ f, x = .fault f ∧ y = .fault f)

end Sys2Proof.Machine
end

