-- ==== Sys2Proof/Certificates/Slice0/Obligations.lean ====
section
/-! DEFINITION. The statements for the provers. Each says in its docstring which rule of the spec it formalises; one that
rests on a choice of the model names the log entry. -/

open Sys2Proof Sys2Proof.Machine

/-! ### Encoding -/

/-- R113: the decoder gives back every command from its word. -/
def Obligations.DecodeGivesBackEncodedCommand : Prop :=
  ∀ i : Instr, i.wellFormed = true ∧ decode (encode i) = .ok i

/-- R113 (with R112's condition): QUANTIZE is the word 0x00000001 and no other, NORMALIZE 0x00000002, CONVOLVE
0x00000003; every other word is illegal, which is when v[31:8] ≠ 0 or v[7:0] is none of 0x01, 0x02 and 0x03. -/
def Obligations.DecodeAcceptsExactlyTheTableWords : Prop :=
  (∀ v : Word, (decode v = .ok .quantize ↔ v = 0x00000001#32) ∧ (decode v = .ok .normalize ↔ v = 0x00000002#32) ∧
    (decode v = .ok .convolve ↔ v = 0x00000003#32)) ∧
  ∀ v : Word, (∃ r, decode v = .error r) ↔
    v.extractLsb' 8 24 ≠ 0#24 ∨ (v.extractLsb' 0 8 ≠ 0x01#8 ∧ v.extractLsb' 0 8 ≠ 0x02#8 ∧ v.extractLsb' 0 8 ≠ 0x03#8)

/-- R113, R112: the three words of the table, and four words that are none. -/
def Obligations.WrittenOutWordsDecode : Prop :=
  decode 0x00000001#32 = .ok .quantize ∧ decode 0x00000002#32 = .ok .normalize ∧ decode 0x00000003#32 = .ok .convolve ∧
  decode 0x00000000#32 = .error .unknownCode ∧ decode 0x00000004#32 = .error .unknownCode ∧
  decode 0x00000103#32 = .error .reservedBits ∧ decode 0x80000001#32 = .error .reservedBits

/-! ### Steps and agents -/

/-- R111: with a command accepted and the engine's turn next (by the scheduler, or because no input is left, log 1), the
step is the meaning of the decoded command. -/
def Obligations.StepRunsTheAcceptedCommand : Prop :=
  ∀ (s : State) (o : Snapshot) (i : Instr), s.engine = .busy o → decode o.word = .ok i →
    (∀ rest, s.pending = .engine :: rest → step s = exec i { s with pending := rest }) ∧
    (s.pending = [] → step s = exec i s)

/-- R111 (with log 2): a word put where the next step fetches is accepted, and the next step runs its command. -/
def Obligations.FetchedWordRunsNext : Prop :=
  ∀ (s : State) (i : Instr), step (s.withFetchWord 32 (encode i).toNat) = exec i (s.accept (encode i))

/-- R290 (with log 1): an IDLE block with no input waits. -/
def Obligations.IdleBlockWaits : Prop :=
  ∀ s : State, s.engine = .idle → s.pending = [] → step s = .next s

/-- R112, R262: at the engine's turn (next in the inputs, or because no input is left, log 1) an illegal word completes with
IllegalCommand, index 0 and the word as value, and changes nothing else. -/
def Obligations.IllegalWordCompletesWithIllegalCommand : Prop :=
  ∀ (s : State) (o : Snapshot) (rest : List Event), s.engine = .busy o →
    (s.pending = .engine :: rest ∨ s.pending = [] ∧ rest = []) →
    (o.word.extractLsb' 8 24 ≠ 0#24 ∨
      (o.word.extractLsb' 0 8 ≠ 0x01#8 ∧ o.word.extractLsb' 0 8 ≠ 0x02#8 ∧ o.word.extractLsb' 0 8 ≠ 0x03#8)) →
    step s = .next { s with
      pending := rest, engine := .idle, done := true, err := true, errCode := .illegalCommand, errIdx := 0#32,
      errVal := o.word.setWidth 64 }

/-- R54, R50, R111: a word written to CMD while IDLE is accepted: BUSY with the snapshot, DONE, ERR, ERRCODE, ERRIDX and
ERRVAL cleared, nothing else changed but the transaction's response. That the snapshot's progress starts at 0 is the
model's choice (log 13). -/
def Obligations.CommandWriteIsAccepted : Prop :=
  ∀ (s : State) (v : Word) (rest : List Event), s.engine = .idle → s.pending = .bus (writeWordAt 0x008#17 v) :: rest →
    step s = .next { s with
      pending := rest, response := some .ok, done := false, err := false, errCode := .noError, errIdx := 0#32,
      errVal := 0#64,
      engine := .busy
        { word := v, cfg0 := s.cfg0, cfg1 := s.cfg1, nlen := s.nlen, llen := s.llen, progress := 0 } }

/-- R310 (with log 1): a BUSY command completes after any number of cycles, as a next state with the engine IDLE and DONE
set, or the run records the fault of an entry never written. -/
def Obligations.AcceptedCommandCompletesAfterAnyLatency : Prop :=
  ∀ (s : State) (o : Snapshot) (n : Nat), s.engine = .busy o → s.pending = List.replicate n .cycle →
    (∃ t, Sys2Proof.core.run (n + 1) s = .next t ∧ t.engine = .idle ∧ t.done = true) ∨
    (∃ g k, Sys2Proof.core.run (n + 1) s = .fault (.neverWritten g k))

/-- R95, R300, R52, R309: no host transaction and no number of cycles between acceptance and completion affects the command:
its outcome is the one it would have had at once. Reset does affect it (R292): ResetWhileBusyAbandonsTheCommand. -/
def Obligations.InputsWhileBusyDoNotAffectTheCommand : Prop :=
  ∀ (s u : State) (o : Snapshot) (es : List Event), s.engine = .busy o →
    (∀ e ∈ es, e = .cycle ∨ ∃ t, e = .bus t) → runEvents es s = .next u →
    SameOutcome (engineTurn s) (engineTurn u)

/-! ### The bus -/

/-- R80: the register offsets, and the reserved rest of the register block. -/
def Obligations.RegisterOffsets : Prop :=
  ∀ nmax lmax : Nat,
    placeAt nmax lmax 0x000 = some (.reg .id) ∧ placeAt nmax lmax 0x004 = some (.reg .param) ∧
    placeAt nmax lmax 0x008 = some (.reg .cmd) ∧ placeAt nmax lmax 0x00C = some (.reg .status) ∧
    placeAt nmax lmax 0x010 = some (.reg .cfg0) ∧ placeAt nmax lmax 0x014 = some (.reg .cfg1) ∧
    placeAt nmax lmax 0x018 = some (.reg .nlen) ∧ placeAt nmax lmax 0x01C = some (.reg .llen) ∧
    placeAt nmax lmax 0x020 = some (.reg .outlen) ∧ placeAt nmax lmax 0x024 = some (.reg .errIdx) ∧
    placeAt nmax lmax 0x028 = some (.reg .errValLo) ∧ placeAt nmax lmax 0x02C = some (.reg .errValHi) ∧
    ∀ a, 0x030 ≤ a → a ≤ 0x0FFF → placeAt nmax lmax a = none

/-- R82, R83: in every legal build an aligned offset is a memory word exactly when it is the address of an entry (or of
the high half of a 64-bit entry), and it is unmapped when it is neither that nor a register's. -/
def Obligations.MemoryEntryOffsets : Prop :=
  ∀ nmax lmax a : Nat, 1 ≤ nmax → nmax ≤ 4096 → 1 ≤ lmax → lmax ≤ 512 → a % 4 = 0 →
    (placeAt nmax lmax a = some (.mem .rawTap) ↔ ∃ k < lmax, a = 0x01000 + 8 * k ∨ a = 0x01000 + 8 * k + 4) ∧
    (placeAt nmax lmax a = some (.mem .coef) ↔ ∃ k < lmax, a = 0x02000 + 4 * k) ∧
    (placeAt nmax lmax a = some (.mem .rawSample) ↔ ∃ i < nmax, a = 0x08000 + 8 * i ∨ a = 0x08000 + 8 * i + 4) ∧
    (placeAt nmax lmax a = some (.mem .sample) ↔ ∃ i < nmax, a = 0x10000 + 4 * i) ∧
    (placeAt nmax lmax a = some (.mem .out) ↔ ∃ m < nmax + lmax - 1, a = 0x18000 + 4 * m) ∧
    ((∃ r, placeAt nmax lmax a = some (.reg r)) ↔ a < 0x030)

/-- R86: a transaction gets the bus error, a fault of the run, exactly when it is misaligned, narrower or wider than 32
bits, leaves out a byte lane, or is unmapped. -/
def Obligations.BusErrorsAreExactlyR86 : Prop :=
  (∀ (s : State) (off : BitVec 17) (bits : Nat), (∃ f, transact (.read off bits) s = .fault f) ↔
    (off.toNat % 4 ≠ 0 ∨ bits < 32 ∨ 32 < bits ∨ placeAt s.nmax s.lmax off.toNat = none)) ∧
  (∀ (s : State) (off : BitVec 17) (bits : Nat) (lanes : BitVec 4) (v : Word),
    (∃ f, transact (.write off bits lanes v) s = .fault f) ↔
    (off.toNat % 4 ≠ 0 ∨ bits < 32 ∨ lanes ≠ 0xF#4 ∨ 32 < bits ∨ placeAt s.nmax s.lmax off.toNat = none))

/-- R84 (and R53, R56 for the unspecified words, log 6): what ReadWord answers; no state changes but the model's own response and
draw counter. The register case leaves out STATUS holding the reserved code 7 (V5), which no run reaches. -/
def Obligations.ReadWordAnswers : Prop :=
  ∀ (s : State) (off : BitVec 17),
    ((off.toNat % 4 ≠ 0 ∨ placeAt s.nmax s.lmax off.toNat = none) → ∃ f, transact (readWordAt off) s = .fault f) ∧
    (∀ r, off.toNat % 4 = 0 → placeAt s.nmax s.lmax off.toNat = some (.reg r) → (r = .status → s.errCode ≠ .shapeMismatch) →
      transact (readWordAt off) s = .next { s with response := some (.data (regValue s r)) }) ∧
    (∀ g v, off.toNat % 4 = 0 → placeAt s.nmax s.lmax off.toNat = some (.mem g) → s.engine = .idle →
      s.mem.readWord off.toNat = some v → transact (readWordAt off) s = .next { s with response := some (.data v) }) ∧
    (∀ g, off.toNat % 4 = 0 → placeAt s.nmax s.lmax off.toNat = some (.mem g) →
      (s.engine ≠ .idle ∨ s.mem.readWord off.toNat = none) →
      transact (readWordAt off) s =
        .next { s with response := some (.data (Config.freeWord s.draws)), draws := s.draws + 1 })

/-- R85, R52, R44: what WriteWord does, case by case, and all that it changes. That the OK of a write dropped while BUSY
carries R303's mark, `okDropped`, is the model's reading (log 15). -/
def Obligations.WriteWordEffects : Prop :=
  ∀ (s : State) (off : BitVec 17) (v : Word),
    ((off.toNat % 4 ≠ 0 ∨ placeAt s.nmax s.lmax off.toNat = none) → ∃ f, transact (writeWordAt off v) s = .fault f) ∧
    (∀ p, off.toNat % 4 = 0 → placeAt s.nmax s.lmax off.toNat = some p → s.engine ≠ .idle →
      transact (writeWordAt off v) s = .next { s with response := some .okDropped }) ∧
    (off.toNat % 4 = 0 → s.engine = .idle →
      (∀ r ∈ [Reg.id, .param, .status, .outlen, .errIdx, .errValLo, .errValHi],
        placeAt s.nmax s.lmax off.toNat = some (.reg r) →
        transact (writeWordAt off v) s = .next { s with response := some .ok }) ∧
      (placeAt s.nmax s.lmax off.toNat = some (.mem .out) →
        transact (writeWordAt off v) s = .next { s with response := some .ok }) ∧
      (placeAt s.nmax s.lmax off.toNat = some (.reg .cmd) →
        transact (writeWordAt off v) s = .next { s.accept v with response := some .ok }) ∧
      (placeAt s.nmax s.lmax off.toNat = some (.reg .cfg0) →
        transact (writeWordAt off v) s = .next { s with cfg0 := v, response := some .ok }) ∧
      (placeAt s.nmax s.lmax off.toNat = some (.reg .cfg1) → ∃ w : Word,
        transact (writeWordAt off v) s = .next { s with cfg1 := w, response := some .ok } ∧
        w.extractLsb' 0 5 = v.extractLsb' 0 5 ∧ w.extractLsb' 5 27 = 0#27) ∧
      (placeAt s.nmax s.lmax off.toNat = some (.reg .nlen) → ∃ w : Word,
        transact (writeWordAt off v) s = .next { s with nlen := w, response := some .ok } ∧
        w.extractLsb' 0 16 = v.extractLsb' 0 16 ∧ w.extractLsb' 16 16 = 0#16) ∧
      (placeAt s.nmax s.lmax off.toNat = some (.reg .llen) → ∃ w : Word,
        transact (writeWordAt off v) s = .next { s with llen := w, response := some .ok } ∧
        w.extractLsb' 0 16 = v.extractLsb' 0 16 ∧ w.extractLsb' 16 16 = 0#16) ∧
      (∀ g, g ≠ .out → placeAt s.nmax s.lmax off.toNat = some (.mem g) → ∃ m : Memory,
        transact (writeWordAt off v) s = .next { s with mem := m, response := some .ok } ∧
        m.readWord off.toNat = some v ∧
        ∀ a, (a < off.toNat ∨ off.toNat + 4 ≤ a) → m.read a = s.mem.read a))

/-- R52: while BUSY a write in the window changes no register and no memory entry, and completes with OK unless it is a
bus error. That this OK carries R303's mark, `okDropped`, is the model's reading (log 15). -/
def Obligations.WritesWhileBusyAreDropped : Prop :=
  ∀ (s : State) (o : Snapshot) (off : BitVec 17) (bits : Nat) (lanes : BitVec 4) (v : Word) (rest : List Event),
    s.engine = .busy o → s.pending = .bus (.write off bits lanes v) :: rest →
    step s = .next { s with pending := rest, response := some .okDropped } ∨
    ((off.toNat % 4 ≠ 0 ∨ bits ≠ 32 ∨ lanes ≠ 0xF#4 ∨ placeAt s.nmax s.lmax off.toNat = none) ∧ ∃ f, step s = .fault f)

/-- R33-R36, R41-R43: what each register reads as. STATUS: BUSY, DONE, ERR, ERRCODE at their bits, reserved bits 0. -/
def Obligations.RegistersReadAsLaidOut : Prop :=
  ∀ s : State, regValue s .id = 0x46495207#32 ∧ regValue s .param = s.param ∧ regValue s .cmd = 0#32 ∧
    regValue s .cfg0 = s.cfg0 ∧ regValue s .cfg1 = s.cfg1 ∧ regValue s .nlen = s.nlen ∧ regValue s .llen = s.llen ∧
    regValue s .outlen = s.outlen ∧ regValue s .errIdx = s.errIdx ∧
    regValue s .errValHi ++ regValue s .errValLo = s.errVal ∧
    ((regValue s .status).getLsbD 0 = true ↔ s.engine ≠ .idle) ∧
    (regValue s .status).getLsbD 1 = s.done ∧ (regValue s .status).getLsbD 2 = s.err ∧
    (regValue s .status).extractLsb' 3 5 = 0#5 ∧ (regValue s .status).extractLsb' 8 8 = s.errCode.number ∧
    (regValue s .status).extractLsb' 16 16 = 0#16

/-- R250: the numbers of the error codes. -/
def Obligations.ErrorCodeNumbers : Prop :=
  [ErrorCode.noError, .emptyFilter, .nonFiniteCoefficient, .coefficientOutOfRange, .nonFiniteSample, .invalidBitWidth,
    .unsupportedCoeffWidth, .shapeMismatch, .illegalCommand, .lengthOutOfRange, .invalidConfig, .qCoefOutOfRange,
    .sampleOutOfRange].map (fun c => c.number.toNat) = List.range 13

/-- R87, R82: byte j of a stored word is its bits [8j+7:8j], and a 64-bit entry is its low word at the lower address and
its high word 4 bytes above, neither disturbing the other. -/
def Obligations.WordsAndHalvesAreLittleEndian : Prop :=
  (∀ (m : Memory) (a j : Nat) (v : Word), j < 4 → (m.writeWord a v).read (a + j) = some (v.extractLsb' (8 * j) 8)) ∧
  (∀ (m : Memory) (a : Nat) (lo hi : Word), ((m.writeWord a lo).writeWord (a + 4) hi).readDWord a = some (hi ++ lo)) ∧
  (∀ (m : Memory) (a : Nat) (lo hi : Word), ((m.writeWord (a + 4) hi).writeWord a lo).readDWord a = some (hi ++ lo))

/-- R116, R82, R85: in a legal build and while IDLE, the script WR64 at an entry of RAW_TAP or RAW_SAMPLE runs and leaves
that entry holding its 64 bits, every byte outside the entry unchanged. -/
def Obligations.ScriptWr64StoresTheEntry : Prop :=
  ∀ (s : State) (i : Nat) (b : DWord), s.LegalBuild → s.engine = .idle →
    (i < s.lmax → ∃ m : Memory,
      runScript (wr64 (BitVec.ofNat 17 (0x01000 + 8 * i)) b) s = .next { s with mem := m, response := some .ok } ∧
      m.readDWord (0x01000 + 8 * i) = some b ∧
      ∀ a, (a < 0x01000 + 8 * i ∨ 0x01000 + 8 * i + 8 ≤ a) → m.read a = s.mem.read a) ∧
    (i < s.nmax → ∃ m : Memory,
      runScript (wr64 (BitVec.ofNat 17 (0x08000 + 8 * i)) b) s = .next { s with mem := m, response := some .ok } ∧
      m.readDWord (0x08000 + 8 * i) = some b ∧
      ∀ a, (a < 0x08000 + 8 * i ∨ 0x08000 + 8 * i + 8 ≤ a) → m.read a = s.mem.read a)

/-- R116, R37, R38, R50: while IDLE, SETCFG and SETMODE and a command's write run, and the accepted command's operands are
the fields they name, with N and L as the length registers hold them. -/
def Obligations.ScriptSetsTheOperands : Prop :=
  ∀ (s : State) (d f a c : BitVec 8) (mode strict : Bool) (qround : BitVec 2) (sfmt : Bool) (i : Instr),
    s.engine = .idle →
    ∃ t, runScript (setCfg d f a c ++ setMode mode strict qround sfmt ++ startCommand i) s = .next t ∧
      t.isBusy = true ∧ decode t.operands.word = .ok i ∧
      t.operands.dataBits = d.toNat ∧ t.operands.fracBits = f.toNat ∧ t.operands.accBits = a.toNat ∧
      t.operands.coeffBits = c.toNat ∧ t.operands.linear = mode ∧ t.operands.strict = strict ∧
      t.operands.qround = qround.toNat ∧ t.operands.intSamples = sfmt ∧
      t.operands.sampleCount = (s.nlen.extractLsb' 0 16).toNat ∧ t.operands.tapCount = (s.llen.extractLsb' 0 16).toNat ∧
      t.mem = s.mem

/-- R81: the window is 2^17 bytes at FIR_BASE, each offset once (log 14). -/
def Obligations.WindowOfThePlatform : Prop :=
  (∀ off : BitVec 17, windowOffset (Config.firBase + off.toNat) = some off) ∧
  (∀ a, (a < Config.firBase ∨ Config.firBase + 131072 ≤ a) → windowOffset a = none)

/-! ### Reset -/

/-- R290: the registers after reset, the engine IDLE, and no memory byte written. PARAM is the default build's (R34). -/
def Obligations.ResetLeavesTheStatedValues : Prop :=
  State.reset.engine = .idle ∧ regValue State.reset .id = 0x46495207#32 ∧ regValue State.reset .param = 0x01001000#32 ∧
  State.reset.nmax = 4096 ∧ State.reset.lmax = 256 ∧
  regValue State.reset .status = 0#32 ∧ regValue State.reset .cfg0 = 0x10200C08#32 ∧
  regValue State.reset .cfg1 = 0x00000002#32 ∧ regValue State.reset .nlen = 0#32 ∧ regValue State.reset .llen = 0#32 ∧
  regValue State.reset .outlen = 0#32 ∧ regValue State.reset .errIdx = 0#32 ∧ regValue State.reset .errValLo = 0#32 ∧
  regValue State.reset .errValHi = 0#32 ∧
  State.reset.operands.dataBits = 8 ∧ State.reset.operands.fracBits = 12 ∧ State.reset.operands.accBits = 32 ∧
  State.reset.operands.coeffBits = 16 ∧ State.reset.operands.linear = false ∧ State.reset.operands.strict = true ∧
  State.reset.operands.qround = 0 ∧ State.reset.operands.intSamples = false ∧
  ∀ a, State.reset.mem.read a = none

/-- R292, R291: reset while BUSY abandons the command: no DONE, no ERR, the registers at their reset values; the build
constants stay (R34). That every memory byte is as never written is the model's choice (log 5, with R291), and so is that
the inputs still to come stay (log 12). -/
def Obligations.ResetWhileBusyAbandonsTheCommand : Prop :=
  ∀ (s : State) (o : Snapshot) (rest : List Event), s.engine = .busy o → s.pending = .reset :: rest →
    ∃ t, step s = .next t ∧ t.engine = .idle ∧ t.done = false ∧ t.err = false ∧ (∀ a, t.mem.read a = none) ∧
      (∀ r, r ≠ .param → regValue t r = regValue State.reset r) ∧ t.param = s.param ∧ t.pending = rest

/-- R290, R291: whatever the block was doing, IDLE or BUSY, a reset leaves it IDLE with every register at the value the
table gives; the build constants stay (R34). That every memory byte is as never written is the model's choice (log 5, with
R291), and so is that the inputs still to come stay (log 12). -/
def Obligations.ResetFromAnyStateLeavesTheStatedValues : Prop :=
  ∀ (s : State) (rest : List Event), s.pending = .reset :: rest →
    ∃ t, step s = .next t ∧ t.engine = .idle ∧ t.done = false ∧ t.err = false ∧ t.errCode = .noError ∧
      regValue t .id = 0x46495207#32 ∧ regValue t .status = 0#32 ∧ regValue t .cfg0 = 0x10200C08#32 ∧
      regValue t .cfg1 = 0x00000002#32 ∧ regValue t .nlen = 0#32 ∧ regValue t .llen = 0#32 ∧ regValue t .outlen = 0#32 ∧
      regValue t .errIdx = 0#32 ∧ regValue t .errValLo = 0#32 ∧ regValue t .errValHi = 0#32 ∧
      (∀ a, t.mem.read a = none) ∧ t.param = s.param ∧ t.pending = rest

/-! ### Results of the commands -/

/-- R142-R144, R146 (no error): with legal fields and every tap written, finite and, in strict mode, in range, QUANTIZE
completes; COEF[k] is the tap times 2^F, rounded by QROUND and clamped to C bits, and nothing else changes but BUSY and
DONE. That the internal accumulator is left alone too is the model's choice (log 8). -/
def Obligations.QuantizeStoresRoundedTaps : Prop :=
  ∀ s : State, s.QuantizeLegal →
    (∀ k < s.operands.tapCount, ∃ b, s.rawTapIs k b ∧ finite64 b = true ∧
      (s.operands.strict = true → TapAccepted s.operands.coeffBits s.operands.fracBits b)) →
    ∃ m : Memory, exec .quantize s = .next { s with mem := m, engine := .idle, done := true } ∧
      (∀ k < s.operands.tapCount, ∀ b, s.rawTapIs k b →
        ∃ r, IsRounded s.operands.qround (val64 b * 2 ^ s.operands.fracBits) r ∧
          m.readWord (0x02000 + 4 * k) =
            some (BitVec.ofInt 32 (clamp r (-2 ^ (s.operands.coeffBits - 1)) (2 ^ (s.operands.coeffBits - 1) - 1)))) ∧
      ∀ a, (a < 0x02000 ∨ 0x02000 + 4 * s.operands.tapCount ≤ a) → m.read a = s.mem.read a

/-- R171, R172, R176 (no error): with legal fields and every raw sample written and, as binary64, finite, NORMALIZE
completes; SAMPLE[i] is floor(s + 1/2) clamped to [0, 2^D - 1], and nothing else changes but BUSY and DONE. That the
internal accumulator is left alone too is the model's choice (log 8). -/
def Obligations.NormalizeStoresRoundedSamples : Prop :=
  ∀ s : State, s.NormalizeLegal →
    (∀ i < s.operands.sampleCount, ∃ b, s.rawSampleIs i b ∧ (s.operands.intSamples = false → finite64 b = true)) →
    ∃ m : Memory, exec .normalize s = .next { s with mem := m, engine := .idle, done := true } ∧
      (∀ i < s.operands.sampleCount, ∀ b, s.rawSampleIs i b →
        (s.operands.intSamples = false →
          m.readWord (0x10000 + 4 * i) =
            some (BitVec.ofInt 32 (clamp ⌊val64 b + 1 / 2⌋ 0 (2 ^ s.operands.dataBits - 1)))) ∧
        (s.operands.intSamples = true →
          m.readWord (0x10000 + 4 * i) =
            some (BitVec.ofInt 32 (clamp ⌊(b.toInt : ℚ) + 1 / 2⌋ 0 (2 ^ s.operands.dataBits - 1))))) ∧
      ∀ a, (a < 0x10000 ∨ 0x10000 + 4 * s.operands.sampleCount ≤ a) → m.read a = s.mem.read a

/-- R201, R202, R205-R209, R212 (no error): with legal fields and every coefficient and sample written and in range,
CONVOLVE completes; OUT[n] is the zero-padded tap sum, wrapped at A bits, rescaled and saturated, for n in [0, Nout), and
OUTLEN = Nout. Nothing else changes but BUSY, DONE and the internal accumulator (a free value, log 8). -/
def Obligations.ConvolveStoresWrappedRescaledSums : Prop :=
  ∀ (s : State) (q x : Nat → Word), s.ConvolveLegal →
    (∀ k < s.operands.tapCount, s.coefIs k (q k) ∧ -2 ^ (s.operands.coeffBits - 1) ≤ (q k).toInt ∧
      (q k).toInt ≤ 2 ^ (s.operands.coeffBits - 1) - 1) →
    (∀ i < s.operands.sampleCount, s.sampleIs i (x i) ∧ (x i).toNat ≤ 2 ^ s.operands.dataBits - 1) →
    ∃ (m : Memory) (nout c : Nat) (acc : DWord) (draws : Nat),
      (s.operands.linear = false → nout = s.operands.sampleCount ∧ c = s.operands.tapCount / 2) ∧
      (s.operands.linear = true → c = 0 ∧
        nout = if s.operands.sampleCount = 0 then 0 else s.operands.sampleCount + s.operands.tapCount - 1) ∧
      exec .convolve s = .next { s with
        mem := m, outlen := BitVec.ofNat 32 nout, engine := .idle, done := true, acc := acc, draws := draws } ∧
      (∀ n < nout, m.readWord (0x18000 + 4 * n) = some (BitVec.ofInt 32 (clamp
        ((wrap s.operands.accBits (∑ k ∈ Finset.range s.operands.tapCount, (q k).toInt *
            (if 0 ≤ (n : ℤ) - k + c ∧ (n : ℤ) - k + c < s.operands.sampleCount
              then ((x ((n : ℤ) - k + c).toNat).toNat : ℤ) else 0))
          + 2 ^ (s.operands.fracBits - 1)) / 2 ^ s.operands.fracBits) 0 (2 ^ s.operands.dataBits - 1)))) ∧
      ∀ a, (a < 0x18000 ∨ 0x18000 + 4 * nout ≤ a) → m.read a = s.mem.read a

/-! ### Errors -/

/-- R140, R260, R264: QUANTIZE's configuration errors, in their order, each with its index and value, nothing else
changed. -/
def Obligations.QuantizeConfigurationErrors : Prop :=
  ∀ s : State, let o := s.operands
    (¬(1 ≤ o.fracBits ∧ o.fracBits ≤ 63) →
      exec .quantize s = .next (s.withError .invalidBitWidth 1 (BitVec.ofNat 64 o.fracBits))) ∧
    ((1 ≤ o.fracBits ∧ o.fracBits ≤ 63) → ¬(o.coeffBits = 8 ∨ o.coeffBits = 16 ∨ o.coeffBits = 32) →
      exec .quantize s = .next (s.withError .unsupportedCoeffWidth 0 (BitVec.ofNat 64 o.coeffBits))) ∧
    ((1 ≤ o.fracBits ∧ o.fracBits ≤ 63) → (o.coeffBits = 8 ∨ o.coeffBits = 16 ∨ o.coeffBits = 32) → o.qround = 3 →
      exec .quantize s = .next (s.withError .invalidConfig 0 3#64)) ∧
    ((1 ≤ o.fracBits ∧ o.fracBits ≤ 63) → (o.coeffBits = 8 ∨ o.coeffBits = 16 ∨ o.coeffBits = 32) → o.qround ≠ 3 →
      o.tapCount = 0 → exec .quantize s = .next (s.withError .emptyFilter 0 0#64)) ∧
    ((1 ≤ o.fracBits ∧ o.fracBits ≤ 63) → (o.coeffBits = 8 ∨ o.coeffBits = 16 ∨ o.coeffBits = 32) → o.qround ≠ 3 →
      o.tapCount ≠ 0 → s.lmax < o.tapCount →
      exec .quantize s = .next (s.withError .lengthOutOfRange 1 (BitVec.ofNat 64 o.tapCount)))

/-- R170, R260, R264: NORMALIZE's configuration errors. -/
def Obligations.NormalizeConfigurationErrors : Prop :=
  ∀ s : State, let o := s.operands
    (¬(1 ≤ o.dataBits ∧ o.dataBits ≤ 16) →
      exec .normalize s = .next (s.withError .invalidBitWidth 0 (BitVec.ofNat 64 o.dataBits))) ∧
    ((1 ≤ o.dataBits ∧ o.dataBits ≤ 16) → s.nmax < o.sampleCount →
      exec .normalize s = .next (s.withError .lengthOutOfRange 0 (BitVec.ofNat 64 o.sampleCount)))

/-- R200, R260, R264: CONVOLVE's configuration errors, in their order. -/
def Obligations.ConvolveConfigurationErrors : Prop :=
  ∀ s : State, let o := s.operands
    let dOk := 1 ≤ o.dataBits ∧ o.dataBits ≤ 16
    let fOk := 1 ≤ o.fracBits ∧ o.fracBits ≤ 63
    let aOk := 1 ≤ o.accBits ∧ o.accBits ≤ 64
    let cOk := o.coeffBits = 8 ∨ o.coeffBits = 16 ∨ o.coeffBits = 32
    (¬dOk → exec .convolve s = .next (s.withError .invalidBitWidth 0 (BitVec.ofNat 64 o.dataBits))) ∧
    (dOk → ¬fOk → exec .convolve s = .next (s.withError .invalidBitWidth 1 (BitVec.ofNat 64 o.fracBits))) ∧
    (dOk → fOk → ¬aOk → exec .convolve s = .next (s.withError .invalidBitWidth 2 (BitVec.ofNat 64 o.accBits))) ∧
    (dOk → fOk → aOk → ¬cOk →
      exec .convolve s = .next (s.withError .unsupportedCoeffWidth 0 (BitVec.ofNat 64 o.coeffBits))) ∧
    (dOk → fOk → aOk → cOk → o.tapCount = 0 → exec .convolve s = .next (s.withError .emptyFilter 0 0#64)) ∧
    (dOk → fOk → aOk → cOk → o.tapCount ≠ 0 → s.nmax < o.sampleCount →
      exec .convolve s = .next (s.withError .lengthOutOfRange 0 (BitVec.ofNat 64 o.sampleCount))) ∧
    (dOk → fOk → aOk → cOk → o.tapCount ≠ 0 → o.sampleCount ≤ s.nmax → s.lmax < o.tapCount →
      exec .convolve s = .next (s.withError .lengthOutOfRange 1 (BitVec.ofNat 64 o.tapCount)))

/-- R140, R264: with legal fields, the lowest non-finite tap is reported, whatever STRICT is. -/
def Obligations.QuantizeReportsTheLowestNonFiniteTap : Prop :=
  ∀ (s : State) (k : Nat) (b : DWord), s.QuantizeLegal → k < s.operands.tapCount →
    (∀ j < k, ∃ c, s.rawTapIs j c ∧ finite64 c = true) → s.rawTapIs k b → finite64 b = false →
    exec .quantize s = .next (s.withError .nonFiniteCoefficient k b)

/-- R141, R140, R264: in strict mode, with every tap finite, the lowest tap outside the accepted range is reported. -/
def Obligations.QuantizeReportsTheLowestTapOutOfRange : Prop :=
  ∀ (s : State) (k : Nat) (b : DWord), s.QuantizeLegal → s.operands.strict = true → k < s.operands.tapCount →
    (∀ j < s.operands.tapCount, ∃ c, s.rawTapIs j c ∧ finite64 c = true) →
    (∀ j < k, ∀ c, s.rawTapIs j c → TapAccepted s.operands.coeffBits s.operands.fracBits c) →
    s.rawTapIs k b → ¬TapAccepted s.operands.coeffBits s.operands.fracBits b →
    exec .quantize s = .next (s.withError .coefficientOutOfRange k b)

/-- R173: as binary64, the lowest non-finite sample is reported with its raw 64 bits and no partial result; as integers,
no sample can be non-finite. -/
def Obligations.NormalizeReportsTheLowestNonFiniteSample : Prop :=
  (∀ (s : State) (i : Nat) (b : DWord), s.NormalizeLegal → s.operands.intSamples = false → i < s.operands.sampleCount →
    (∀ j < i, ∃ c, s.rawSampleIs j c ∧ finite64 c = true) → s.rawSampleIs i b → finite64 b = false →
    exec .normalize s = .next (s.withError .nonFiniteSample i b)) ∧
  (∀ s t : State, s.operands.intSamples = true → s.errCode ≠ .nonFiniteSample → exec .normalize s = .next t →
    t.errCode ≠ .nonFiniteSample)

/-- R203: the first coefficient outside the C-bit range is reported, with its 64-bit two's-complement pattern. -/
def Obligations.ConvolveReportsTheFirstBadCoefficient : Prop :=
  ∀ (s : State) (k : Nat) (v : Word), s.ConvolveLegal → k < s.operands.tapCount →
    (∀ j < k, ∃ w, s.coefIs j w ∧ -2 ^ (s.operands.coeffBits - 1) ≤ w.toInt ∧
      w.toInt ≤ 2 ^ (s.operands.coeffBits - 1) - 1) →
    s.coefIs k v → ¬(-2 ^ (s.operands.coeffBits - 1) ≤ v.toInt ∧ v.toInt ≤ 2 ^ (s.operands.coeffBits - 1) - 1) →
    exec .convolve s = .next (s.withError .qCoefOutOfRange k (v.signExtend 64))

/-- R204: with every coefficient in range, the first sample above 2^D - 1 is reported. -/
def Obligations.ConvolveReportsTheFirstBadSample : Prop :=
  ∀ (s : State) (i : Nat) (v : Word), s.ConvolveLegal →
    (∀ k < s.operands.tapCount, ∃ w, s.coefIs k w ∧ -2 ^ (s.operands.coeffBits - 1) ≤ w.toInt ∧
      w.toInt ≤ 2 ^ (s.operands.coeffBits - 1) - 1) →
    i < s.operands.sampleCount →
    (∀ j < i, ∃ w, s.sampleIs j w ∧ w.toNat ≤ 2 ^ s.operands.dataBits - 1) →
    s.sampleIs i v → 2 ^ s.operands.dataBits - 1 < v.toNat →
    exec .convolve s = .next (s.withError .sampleOutOfRange i (v.setWidth 64))

/-- R56 (read as log 7 says): a command that comes to an entry never written since reset, a 64-bit entry with a half
unwritten included, records a fault naming it. -/
def Obligations.ConsumingAnUnwrittenEntryFaults : Prop :=
  (∀ (s : State) (k : Nat), s.QuantizeLegal → k < s.operands.tapCount →
    (∀ j < k, ∃ c, s.rawTapIs j c ∧ finite64 c = true) →
    (s.mem.readWord (0x01000 + 8 * k) = none ∨ s.mem.readWord (0x01000 + 8 * k + 4) = none) →
    exec .quantize s = .fault (.neverWritten .rawTap k)) ∧
  (∀ (s : State) (i : Nat), s.NormalizeLegal → i < s.operands.sampleCount →
    (∀ j < i, ∃ c, s.rawSampleIs j c ∧ (s.operands.intSamples = false → finite64 c = true)) →
    (s.mem.readWord (0x08000 + 8 * i) = none ∨ s.mem.readWord (0x08000 + 8 * i + 4) = none) →
    exec .normalize s = .fault (.neverWritten .rawSample i)) ∧
  (∀ (s : State) (k : Nat), s.ConvolveLegal → k < s.operands.tapCount →
    (∀ j < k, ∃ w, s.coefIs j w ∧ -2 ^ (s.operands.coeffBits - 1) ≤ w.toInt ∧
      w.toInt ≤ 2 ^ (s.operands.coeffBits - 1) - 1) →
    s.mem.readWord (0x02000 + 4 * k) = none → exec .convolve s = .fault (.neverWritten .coef k)) ∧
  (∀ (s : State) (i : Nat), s.ConvolveLegal →
    (∀ k < s.operands.tapCount, ∃ w, s.coefIs k w ∧ -2 ^ (s.operands.coeffBits - 1) ≤ w.toInt ∧
      w.toInt ≤ 2 ^ (s.operands.coeffBits - 1) - 1) →
    i < s.operands.sampleCount →
    (∀ j < i, ∃ w, s.sampleIs j w ∧ w.toNat ≤ 2 ^ s.operands.dataBits - 1) →
    s.mem.readWord (0x10000 + 4 * i) = none → exec .convolve s = .fault (.neverWritten .sample i))

/-- R262: a command that ends in error leaves the state as it was, but for STATUS, ERRIDX and ERRVAL; the code is none of
0 and 7 (R252). -/
def Obligations.ErroredCommandIsPrecise : Prop :=
  ∀ (i : Instr) (s t : State), exec i s = .next t → s.err = false → t.err = true →
    ∃ code idx val, code ≠ .noError ∧ code ≠ .shapeMismatch ∧ t = s.withError code idx val

/-! ### Frames and whole-machine rules -/

/-- R146, R176, R212, R55: whatever a command answers as a next state, error or not, it is IDLE and DONE; the build, CFG0,
CFG1, NLEN, LLEN and the host's side are unchanged; OUTLEN is unchanged but by CONVOLVE; every byte outside the command's
destination entries is unchanged; the error registers change only with an error. That QUANTIZE, NORMALIZE and an errored
command leave the internal accumulator and the draw counter alone is the model's choice (log 8). -/
def Obligations.CommandsChangeOnlyTheirDestination : Prop :=
  ∀ (i : Instr) (s t : State), exec i s = .next t →
    t.engine = .idle ∧ t.done = true ∧ t.param = s.param ∧ t.cfg0 = s.cfg0 ∧ t.cfg1 = s.cfg1 ∧ t.nlen = s.nlen ∧
    t.llen = s.llen ∧ t.pending = s.pending ∧ t.response = s.response ∧
    (i ≠ .convolve → t.outlen = s.outlen ∧ t.acc = s.acc ∧ t.draws = s.draws) ∧
    (t.err = s.err ∧ t.errCode = s.errCode ∧ t.errIdx = s.errIdx ∧ t.errVal = s.errVal ∨
      t.err = true ∧ t.mem = s.mem ∧ t.outlen = s.outlen ∧ t.acc = s.acc ∧ t.draws = s.draws) ∧
    (i = .quantize → ∀ a, (a < 0x02000 ∨ 0x02000 + 4 * s.operands.tapCount ≤ a) → t.mem.read a = s.mem.read a) ∧
    (i = .normalize → ∀ a, (a < 0x10000 ∨ 0x10000 + 4 * s.operands.sampleCount ≤ a) → t.mem.read a = s.mem.read a) ∧
    (i = .convolve → ∀ a, (a < 0x18000 ∨
      0x18000 + 4 * outputCount s.operands.linear s.operands.sampleCount s.operands.tapCount ≤ a) →
      t.mem.read a = s.mem.read a)

/-- R49: "Only CONVOLVE writes OUT": in a legal build no input but reset and an accepted CONVOLVE's engine turn changes a
byte at or above OUT. -/
def Obligations.OnlyConvolveWritesOut : Prop :=
  ∀ (e : Event) (s t : State) (a : Nat), s.LegalBuild → handle e s = .next t → e ≠ .reset → 0x18000 ≤ a →
    t.mem.read a ≠ s.mem.read a →
    e = .engine ∧ ∃ o, s.engine = .busy o ∧ decode o.word = .ok .convolve

/-- R36, R54, R55: STATUS, ERRIDX and ERRVAL change only by an accepted word, the engine's turn, or reset. -/
def Obligations.OnlyAcceptanceAndTheEngineChangeStatus : Prop :=
  ∀ (e : Event) (s t : State), handle e s = .next t → e ≠ .reset → e ≠ .engine →
    (s.engine ≠ .idle ∨ ∀ v, e ≠ .bus (writeWordAt 0x008#17 v)) →
    t.statusWord = s.statusWord ∧ t.errIdx = s.errIdx ∧ t.errVal = s.errVal

/-- The invariant at reset. -/
def Obligations.InvariantHoldsAtReset : Prop := State.reset.Inv

/-- The invariant is kept by every step: the build is legal, the memories are canonical, whole words, mapped, and OUT
narrow; STATUS and the error registers agree (R36, R42, R43, R252); the snapshot is the registers' value (R50, R52);
reserved bits are 0 (R44); OUTLEN fits OUT. -/
def Obligations.StepKeepsTheInvariant : Prop :=
  ∀ s t : State, s.Inv → step s = .next t → t.Inv

/-- V5: under the invariant no step is refused: no reserved code is ever read. -/
def Obligations.InvariantStatesAreNeverRefused : Prop :=
  ∀ (s : State) (r : Refusal), s.Inv → step s ≠ .refused r

/-- R56, R86, R263: a fault of a step is either a bus error of the host transaction that was next, named by a condition of
R86 it meets, or, at the engine's turn, an entry that the accepted command consumes and that really is unwritten: RAW_TAP
by QUANTIZE, RAW_SAMPLE by NORMALIZE, COEF and SAMPLE by CONVOLVE. -/
def Obligations.FaultsHaveTheirCause : Prop :=
  ∀ (s : State) (f : Fault), step s = .fault f →
    (∃ t rest, s.pending = .bus t :: rest ∧ ∃ (off : BitVec 17) (bits : Nat),
      (t = .read off bits ∨ ∃ lanes v, t = .write off bits lanes v) ∧
      ((f = .busMisaligned off ∧ off.toNat % 4 ≠ 0) ∨ (f = .busNarrow off ∧ bits < 32) ∨
       (f = .busPartialLanes off ∧ ∃ lanes v, t = .write off bits lanes v ∧ lanes ≠ 0xF#4) ∨
       (f = .busWide off ∧ 32 < bits) ∨ (f = .busUnmapped off ∧ placeAt s.nmax s.lmax off.toNat = none))) ∨
    ((s.pending = [] ∨ ∃ rest, s.pending = .engine :: rest) ∧ ∃ o, s.engine = .busy o ∧
      ((decode o.word = .ok .quantize ∧
        ∃ k < o.tapCount, f = .neverWritten .rawTap k ∧ s.mem.readDWord (0x01000 + 8 * k) = none) ∨
       (decode o.word = .ok .normalize ∧
        ∃ i < o.sampleCount, f = .neverWritten .rawSample i ∧ s.mem.readDWord (0x08000 + 8 * i) = none) ∨
       (decode o.word = .ok .convolve ∧
        ((∃ k < o.tapCount, f = .neverWritten .coef k ∧ s.mem.readWord (0x02000 + 4 * k) = none) ∨
         ∃ i < o.sampleCount, f = .neverWritten .sample i ∧ s.mem.readWord (0x10000 + 4 * i) = none))))

/-- R145, R174, R210, R261: what a command stores depends only on its own operands and inputs (and the build's depths),
not on any other register, memory, flag or the accumulator. -/
def Obligations.CommandResultsDependOnlyOnTheirOperands : Prop :=
  (∀ s u : State, s.lmax = u.lmax → s.operands.coeffBits = u.operands.coeffBits →
    s.operands.fracBits = u.operands.fracBits → s.operands.strict = u.operands.strict →
    s.operands.qround = u.operands.qround → s.operands.tapCount = u.operands.tapCount →
    (∀ k < s.operands.tapCount, s.mem.readDWord (0x01000 + 8 * k) = u.mem.readDWord (0x01000 + 8 * k)) →
    quantizedWords s = quantizedWords u) ∧
  (∀ s u : State, s.nmax = u.nmax → s.operands.dataBits = u.operands.dataBits →
    s.operands.intSamples = u.operands.intSamples → s.operands.sampleCount = u.operands.sampleCount →
    (∀ i < s.operands.sampleCount, s.mem.readDWord (0x08000 + 8 * i) = u.mem.readDWord (0x08000 + 8 * i)) →
    normalizedWords s = normalizedWords u) ∧
  (∀ s u : State, s.nmax = u.nmax → s.lmax = u.lmax → s.operands.dataBits = u.operands.dataBits →
    s.operands.fracBits = u.operands.fracBits → s.operands.accBits = u.operands.accBits →
    s.operands.coeffBits = u.operands.coeffBits → s.operands.linear = u.operands.linear →
    s.operands.tapCount = u.operands.tapCount → s.operands.sampleCount = u.operands.sampleCount →
    (∀ k < s.operands.tapCount, s.mem.readWord (0x02000 + 4 * k) = u.mem.readWord (0x02000 + 4 * k)) →
    (∀ i < s.operands.sampleCount, s.mem.readWord (0x10000 + 4 * i) = u.mem.readWord (0x10000 + 4 * i)) →
    convolvedWords s = convolvedWords u)

/-! ### Arithmetic -/

/-- R122: the value of a finite binary64 pattern, by its sign, exponent and fraction. -/
def Obligations.Binary64Values : Prop :=
  ∀ b : DWord, let s := (b.extractLsb' 63 1).toNat
    let e := (b.extractLsb' 52 11).toNat
    let f := (b.extractLsb' 0 52).toNat
    (finite64 b = true ↔ e ≠ 0x7FF) ∧
    (e = 0 → val64 b = (-1) ^ s * f * (2 : ℚ) ^ (-1074 : ℤ)) ∧
    (e ≠ 0 → e ≠ 0x7FF → val64 b = (-1) ^ s * (2 ^ 52 + f) * (2 : ℚ) ^ ((e : ℤ) - 1075))

/-- R11: the three roundings are the spec's. -/
def Obligations.RoundingFunctions : Prop :=
  ∀ v : ℚ, rndHalfAway v = (SignType.sign v : ℤ) * ⌊|v| + 1 / 2⌋ ∧ rndHalfUp v = ⌊v + 1 / 2⌋ ∧
    |v - rndHalfEven v| ≤ 1 / 2 ∧ (|v - rndHalfEven v| = 1 / 2 → Even (rndHalfEven v))

/-- R143: QROUND selects the rounding, 3 none; the three agree but at ties, and there they are as the rule says. -/
def Obligations.RoundingModesDifferOnlyAtTies : Prop :=
  roundingOf 0 = some rndHalfAway ∧ roundingOf 1 = some rndHalfEven ∧ roundingOf 2 = some rndHalfUp ∧
  roundingOf 3 = none ∧
  (∀ v : ℚ, (∀ m : ℤ, v ≠ m + 1 / 2) → rndHalfAway v = rndHalfUp v ∧ rndHalfEven v = rndHalfUp v) ∧
  (∀ m : ℤ, rndHalfAway ((m : ℚ) + 1 / 2) = (if 0 ≤ m then m + 1 else m) ∧ rndHalfUp ((m : ℚ) + 1 / 2) = m + 1 ∧
    rndHalfEven ((m : ℚ) + 1 / 2) = (if Even m then m else m + 1))

/-- R148: the quantization error of an accepted tap is at most half a step, in every rounding mode. -/
def Obligations.QuantizationErrorBound : Prop :=
  ∀ (q c f : Nat) (rnd : ℚ → ℤ) (b : DWord), roundingOf q = some rnd → (c = 8 ∨ c = 16 ∨ c = 32) → TapAccepted c f b →
    |val64 b - ((quantizeTap rnd c f b).toInt : ℚ) / 2 ^ f| ≤ 1 / 2 ^ f / 2

/-- R144: for an accepted tap the clamp changes nothing. -/
def Obligations.ClampIsInactiveOnAcceptedTaps : Prop :=
  ∀ (q c f : Nat) (rnd : ℚ → ℤ) (b : DWord), roundingOf q = some rnd → (c = 8 ∨ c = 16 ∨ c = 32) → TapAccepted c f b →
    clamp (rnd (val64 b * 2 ^ f)) (-2 ^ (c - 1)) (2 ^ (c - 1) - 1) = rnd (val64 b * 2 ^ f) ∧
    (quantizeTap rnd c f b).toInt = rnd (val64 b * 2 ^ f)

/-- R206, R10: the wrapped sum lies in the A-bit range and is congruent to the sum modulo 2^A. -/
def Obligations.WrapIsTwosComplement : Prop :=
  ∀ (a : Nat) (s : ℤ), 1 ≤ a →
    -2 ^ (a - 1) ≤ wrap a s ∧ wrap a s ≤ 2 ^ (a - 1) - 1 ∧ wrap a s ≡ s [ZMOD 2 ^ a]

/-- R206, R51, C4: an accumulator reduced modulo 2^A after every product ends as the sum reduced once at the end. -/
def Obligations.PerStepMaskingEqualsEndOfSumMasking : Prop :=
  ∀ (a : Nat) (q x : List ℤ) (n c : ℕ), 1 ≤ a → macWrappedFrom a x n c 0 q 0 = wrap a (tapSum q x c n)

/-- R208: the rescale is floor((a + 2^(F-1)) / 2^F) = floor(a/2^F + 1/2), exact. -/
def Obligations.RescaleRoundsHalfUp : Prop :=
  ∀ (f : Nat) (a : ℤ), 1 ≤ f →
    rescale f a = ⌊((a : ℚ) + 2 ^ (f - 1)) / 2 ^ f⌋ ∧ rescale f a = ⌊(a : ℚ) / 2 ^ f + 1 / 2⌋

/-- R211: the widths of the arithmetic, for legal coefficients, samples, lengths and widths: the sum fits 57 bits signed,
a product 48, the wrapped sum A, the biased sum 65, and the rescaled value is in the range the rule gives. -/
def Obligations.ArithmeticWidths : Prop :=
  (∀ (q x : List ℤ) (c n : ℕ), q.length ≤ 512 → (∀ v ∈ q, -2 ^ 31 ≤ v ∧ v ≤ 2 ^ 31 - 1) →
    (∀ v ∈ x, 0 ≤ v ∧ v ≤ 2 ^ 16 - 1) → |tapSum q x c n| < 2 ^ 56) ∧
  (∀ q x : ℤ, -2 ^ 31 ≤ q → q ≤ 2 ^ 31 - 1 → 0 ≤ x → x ≤ 2 ^ 16 - 1 → |q * x| < 2 ^ 47) ∧
  (∀ (f a : Nat) (s : ℤ), 1 ≤ f → f ≤ 63 → 1 ≤ a → a ≤ 64 →
    (-2 ^ (a - 1) ≤ wrap a s ∧ wrap a s ≤ 2 ^ (a - 1) - 1) ∧
    (-2 ^ 64 ≤ wrap a s + 2 ^ (f - 1) ∧ wrap a s + 2 ^ (f - 1) ≤ 2 ^ 64 - 1) ∧
    (f < a → -2 ^ (a - 1 - f) ≤ rescale f (wrap a s) ∧ rescale f (wrap a s) ≤ 2 ^ (a - 1 - f)) ∧
    (a ≤ f → 0 ≤ wrap a s + 2 ^ (f - 1) ∧ wrap a s + 2 ^ (f - 1) < 2 ^ f ∧ rescale f (wrap a s) = 0))

/-- R214: in centered mode OUTLEN = N; zero samples give zero outputs for any coefficients; saturating twice is saturating
once. The saturation itself is clamp's three cases (R9, used by R144, R172 and R209): below lo it gives lo, above hi it
gives hi, between them the value. -/
def Obligations.StatedPropertiesOfConvolve : Prop :=
  (∀ s t : State, s.ConvolveLegal → s.operands.linear = false → s.err = false → exec .convolve s = .next t →
    t.err = false → t.outlen.toNat = s.operands.sampleCount) ∧
  (∀ (s t : State) (n : Nat), s.ConvolveLegal → s.err = false → (∀ i < s.operands.sampleCount, s.sampleIs i 0#32) →
    exec .convolve s = .next t → t.err = false → n < t.outlen.toNat → t.outIs n 0#32) ∧
  (∀ r m : ℤ, 0 ≤ m → clamp (clamp r 0 m) 0 m = clamp r 0 m) ∧
  (∀ v lo hi : ℤ, lo ≤ hi → (v < lo → clamp v lo hi = lo) ∧ (hi < v → clamp v lo hi = hi) ∧
    (lo ≤ v → v ≤ hi → clamp v lo hi = v))

/-- R213: with one tap of value 1.0 (q = 2^F) and an accumulator wide enough, CONVOLVE is the identity on the samples, in
either mode. -/
def Obligations.UnitTapIsTheIdentity : Prop :=
  ∀ (s : State) (x : Nat → Word) (w : Word), s.ConvolveLegal → s.operands.tapCount = 1 → s.coefIs 0 w →
    w.toInt = 2 ^ s.operands.fracBits → w.toInt ≤ 2 ^ (s.operands.coeffBits - 1) - 1 →
    s.operands.fracBits + s.operands.dataBits < s.operands.accBits →
    (∀ i < s.operands.sampleCount, s.sampleIs i (x i) ∧ (x i).toNat ≤ 2 ^ s.operands.dataBits - 1) →
    ∃ t, exec .convolve s = .next t ∧ t.outlen.toNat = s.operands.sampleCount ∧
      ∀ i < s.operands.sampleCount, t.outIs i (x i)

/-- R230, R208, R232: where the taps are exactly q/2^F and the sum does not overflow A bits, the fixed-point output is the
ideal output rounded half up and saturated. -/
def Obligations.FixedOutputIsTheRoundedIdeal : Prop :=
  ∀ (d f a : Nat) (q x : List ℤ) (n : Nat) (h : n < (idealCentered (q.map fun v : ℤ => (v : ℚ) / 2 ^ f) (x.map fun v : ℤ => (v : ℚ))).length),
    1 ≤ f → 1 ≤ a → -2 ^ (a - 1) ≤ tapSum q x (q.length / 2) n → tapSum q x (q.length / 2) n ≤ 2 ^ (a - 1) - 1 →
    outputOf d f a (tapSum q x (q.length / 2) n) =
      clamp ⌊(idealCentered (q.map fun v : ℤ => (v : ℚ) / 2 ^ f) (x.map fun v : ℤ => (v : ℚ)))[n] + 1 / 2⌋ 0 (2 ^ d - 1)

/-- R120: what QUANTIZE stores is in the C-bit range, so CONVOLVE at the same C accepts it. -/
def Obligations.QuantizedCoefficientsAreInRange : Prop :=
  ∀ s t : State, s.err = false → exec .quantize s = .next t → t.err = false →
    ∀ k < s.operands.tapCount, ∃ v, t.coefIs k v ∧ -2 ^ (s.operands.coeffBits - 1) ≤ v.toInt ∧
      v.toInt ≤ 2 ^ (s.operands.coeffBits - 1) - 1

/-- R121: the SAMPLE and OUT entries the engine writes are in [0, 2^D - 1]. -/
def Obligations.WrittenSamplesAndOutputsFitDataBits : Prop :=
  (∀ s t : State, s.err = false → exec .normalize s = .next t → t.err = false →
    ∀ i < s.operands.sampleCount, ∃ v, t.sampleIs i v ∧ v.toNat ≤ 2 ^ s.operands.dataBits - 1) ∧
  (∀ s t : State, s.err = false → exec .convolve s = .next t → t.err = false →
    ∀ m < t.outlen.toNat, ∃ v, t.outIs m v ∧ v.toNat ≤ 2 ^ s.operands.dataBits - 1)
end

