-- ==== Sys2Proof/Laws/State.lean ====
section
/-! SUPPORT. One lemma for each field of State under each named update, so that no later proof unfolds an update. -/

namespace Sys2Proof.Machine

/-! ### clearFlags -/

@[simp] theorem State.clearFlags_param (s : State) : s.clearFlags.param = s.param := rfl
@[simp] theorem State.clearFlags_engine (s : State) : s.clearFlags.engine = s.engine := rfl
@[simp] theorem State.clearFlags_done (s : State) : s.clearFlags.done = false := rfl
@[simp] theorem State.clearFlags_err (s : State) : s.clearFlags.err = false := rfl
@[simp] theorem State.clearFlags_errCode (s : State) : s.clearFlags.errCode = .noError := rfl
@[simp] theorem State.clearFlags_cfg0 (s : State) : s.clearFlags.cfg0 = s.cfg0 := rfl
@[simp] theorem State.clearFlags_cfg1 (s : State) : s.clearFlags.cfg1 = s.cfg1 := rfl
@[simp] theorem State.clearFlags_nlen (s : State) : s.clearFlags.nlen = s.nlen := rfl
@[simp] theorem State.clearFlags_llen (s : State) : s.clearFlags.llen = s.llen := rfl
@[simp] theorem State.clearFlags_outlen (s : State) : s.clearFlags.outlen = s.outlen := rfl
@[simp] theorem State.clearFlags_errIdx (s : State) : s.clearFlags.errIdx = 0#32 := rfl
@[simp] theorem State.clearFlags_errVal (s : State) : s.clearFlags.errVal = 0#64 := rfl
@[simp] theorem State.clearFlags_acc (s : State) : s.clearFlags.acc = s.acc := rfl
@[simp] theorem State.clearFlags_mem (s : State) : s.clearFlags.mem = s.mem := rfl
@[simp] theorem State.clearFlags_pending (s : State) : s.clearFlags.pending = s.pending := rfl
@[simp] theorem State.clearFlags_response (s : State) : s.clearFlags.response = s.response := rfl
@[simp] theorem State.clearFlags_draws (s : State) : s.clearFlags.draws = s.draws := rfl

/-! ### complete -/

@[simp] theorem State.complete_param (s : State) : s.complete.param = s.param := rfl
@[simp] theorem State.complete_engine (s : State) : s.complete.engine = .idle := rfl
@[simp] theorem State.complete_done (s : State) : s.complete.done = true := rfl
@[simp] theorem State.complete_err (s : State) : s.complete.err = s.err := rfl
@[simp] theorem State.complete_errCode (s : State) : s.complete.errCode = s.errCode := rfl
@[simp] theorem State.complete_cfg0 (s : State) : s.complete.cfg0 = s.cfg0 := rfl
@[simp] theorem State.complete_cfg1 (s : State) : s.complete.cfg1 = s.cfg1 := rfl
@[simp] theorem State.complete_nlen (s : State) : s.complete.nlen = s.nlen := rfl
@[simp] theorem State.complete_llen (s : State) : s.complete.llen = s.llen := rfl
@[simp] theorem State.complete_outlen (s : State) : s.complete.outlen = s.outlen := rfl
@[simp] theorem State.complete_errIdx (s : State) : s.complete.errIdx = s.errIdx := rfl
@[simp] theorem State.complete_errVal (s : State) : s.complete.errVal = s.errVal := rfl
@[simp] theorem State.complete_acc (s : State) : s.complete.acc = s.acc := rfl
@[simp] theorem State.complete_mem (s : State) : s.complete.mem = s.mem := rfl
@[simp] theorem State.complete_pending (s : State) : s.complete.pending = s.pending := rfl
@[simp] theorem State.complete_response (s : State) : s.complete.response = s.response := rfl
@[simp] theorem State.complete_draws (s : State) : s.complete.draws = s.draws := rfl

/-! ### recordError -/

@[simp] theorem State.recordError_param (s : State) (e : CommandError) : (s.recordError e).param = s.param := rfl
@[simp] theorem State.recordError_engine (s : State) (e : CommandError) : (s.recordError e).engine = s.engine := rfl
@[simp] theorem State.recordError_done (s : State) (e : CommandError) : (s.recordError e).done = s.done := rfl
@[simp] theorem State.recordError_err (s : State) (e : CommandError) : (s.recordError e).err = true := rfl
@[simp] theorem State.recordError_errCode (s : State) (e : CommandError) : (s.recordError e).errCode = e.code := rfl
@[simp] theorem State.recordError_cfg0 (s : State) (e : CommandError) : (s.recordError e).cfg0 = s.cfg0 := rfl
@[simp] theorem State.recordError_cfg1 (s : State) (e : CommandError) : (s.recordError e).cfg1 = s.cfg1 := rfl
@[simp] theorem State.recordError_nlen (s : State) (e : CommandError) : (s.recordError e).nlen = s.nlen := rfl
@[simp] theorem State.recordError_llen (s : State) (e : CommandError) : (s.recordError e).llen = s.llen := rfl
@[simp] theorem State.recordError_outlen (s : State) (e : CommandError) : (s.recordError e).outlen = s.outlen := rfl
@[simp] theorem State.recordError_errIdx (s : State) (e : CommandError) : (s.recordError e).errIdx = BitVec.ofNat 32 e.idx := rfl
@[simp] theorem State.recordError_errVal (s : State) (e : CommandError) : (s.recordError e).errVal = e.val := rfl
@[simp] theorem State.recordError_acc (s : State) (e : CommandError) : (s.recordError e).acc = s.acc := rfl
@[simp] theorem State.recordError_mem (s : State) (e : CommandError) : (s.recordError e).mem = s.mem := rfl
@[simp] theorem State.recordError_pending (s : State) (e : CommandError) : (s.recordError e).pending = s.pending := rfl
@[simp] theorem State.recordError_response (s : State) (e : CommandError) : (s.recordError e).response = s.response := rfl
@[simp] theorem State.recordError_draws (s : State) (e : CommandError) : (s.recordError e).draws = s.draws := rfl

/-! ### raiseError -/

@[simp] theorem State.raiseError_param (s : State) (e : CommandError) : (s.raiseError e).param = s.param := rfl
@[simp] theorem State.raiseError_engine (s : State) (e : CommandError) : (s.raiseError e).engine = .idle := rfl
@[simp] theorem State.raiseError_done (s : State) (e : CommandError) : (s.raiseError e).done = true := rfl
@[simp] theorem State.raiseError_err (s : State) (e : CommandError) : (s.raiseError e).err = true := rfl
@[simp] theorem State.raiseError_errCode (s : State) (e : CommandError) : (s.raiseError e).errCode = e.code := rfl
@[simp] theorem State.raiseError_cfg0 (s : State) (e : CommandError) : (s.raiseError e).cfg0 = s.cfg0 := rfl
@[simp] theorem State.raiseError_cfg1 (s : State) (e : CommandError) : (s.raiseError e).cfg1 = s.cfg1 := rfl
@[simp] theorem State.raiseError_nlen (s : State) (e : CommandError) : (s.raiseError e).nlen = s.nlen := rfl
@[simp] theorem State.raiseError_llen (s : State) (e : CommandError) : (s.raiseError e).llen = s.llen := rfl
@[simp] theorem State.raiseError_outlen (s : State) (e : CommandError) : (s.raiseError e).outlen = s.outlen := rfl
@[simp] theorem State.raiseError_errIdx (s : State) (e : CommandError) : (s.raiseError e).errIdx = BitVec.ofNat 32 e.idx := rfl
@[simp] theorem State.raiseError_errVal (s : State) (e : CommandError) : (s.raiseError e).errVal = e.val := rfl
@[simp] theorem State.raiseError_acc (s : State) (e : CommandError) : (s.raiseError e).acc = s.acc := rfl
@[simp] theorem State.raiseError_mem (s : State) (e : CommandError) : (s.raiseError e).mem = s.mem := rfl
@[simp] theorem State.raiseError_pending (s : State) (e : CommandError) : (s.raiseError e).pending = s.pending := rfl
@[simp] theorem State.raiseError_response (s : State) (e : CommandError) : (s.raiseError e).response = s.response := rfl
@[simp] theorem State.raiseError_draws (s : State) (e : CommandError) : (s.raiseError e).draws = s.draws := rfl

/-! ### accept -/

@[simp] theorem State.accept_param (s : State) (w : Word) : (s.accept w).param = s.param := rfl
@[simp] theorem State.accept_engine (s : State) (w : Word) : (s.accept w).engine = .busy (s.takeSnapshot w) := rfl
@[simp] theorem State.accept_done (s : State) (w : Word) : (s.accept w).done = false := rfl
@[simp] theorem State.accept_err (s : State) (w : Word) : (s.accept w).err = false := rfl
@[simp] theorem State.accept_errCode (s : State) (w : Word) : (s.accept w).errCode = .noError := rfl
@[simp] theorem State.accept_cfg0 (s : State) (w : Word) : (s.accept w).cfg0 = s.cfg0 := rfl
@[simp] theorem State.accept_cfg1 (s : State) (w : Word) : (s.accept w).cfg1 = s.cfg1 := rfl
@[simp] theorem State.accept_nlen (s : State) (w : Word) : (s.accept w).nlen = s.nlen := rfl
@[simp] theorem State.accept_llen (s : State) (w : Word) : (s.accept w).llen = s.llen := rfl
@[simp] theorem State.accept_outlen (s : State) (w : Word) : (s.accept w).outlen = s.outlen := rfl
@[simp] theorem State.accept_errIdx (s : State) (w : Word) : (s.accept w).errIdx = 0#32 := rfl
@[simp] theorem State.accept_errVal (s : State) (w : Word) : (s.accept w).errVal = 0#64 := rfl
@[simp] theorem State.accept_acc (s : State) (w : Word) : (s.accept w).acc = s.acc := rfl
@[simp] theorem State.accept_mem (s : State) (w : Word) : (s.accept w).mem = s.mem := rfl
@[simp] theorem State.accept_pending (s : State) (w : Word) : (s.accept w).pending = s.pending := rfl
@[simp] theorem State.accept_response (s : State) (w : Word) : (s.accept w).response = s.response := rfl
@[simp] theorem State.accept_draws (s : State) (w : Word) : (s.accept w).draws = s.draws := rfl

/-! ### respond -/

@[simp] theorem State.respond_param (s : State) (r : BusResponse) : (s.respond r).param = s.param := rfl
@[simp] theorem State.respond_engine (s : State) (r : BusResponse) : (s.respond r).engine = s.engine := rfl
@[simp] theorem State.respond_done (s : State) (r : BusResponse) : (s.respond r).done = s.done := rfl
@[simp] theorem State.respond_err (s : State) (r : BusResponse) : (s.respond r).err = s.err := rfl
@[simp] theorem State.respond_errCode (s : State) (r : BusResponse) : (s.respond r).errCode = s.errCode := rfl
@[simp] theorem State.respond_cfg0 (s : State) (r : BusResponse) : (s.respond r).cfg0 = s.cfg0 := rfl
@[simp] theorem State.respond_cfg1 (s : State) (r : BusResponse) : (s.respond r).cfg1 = s.cfg1 := rfl
@[simp] theorem State.respond_nlen (s : State) (r : BusResponse) : (s.respond r).nlen = s.nlen := rfl
@[simp] theorem State.respond_llen (s : State) (r : BusResponse) : (s.respond r).llen = s.llen := rfl
@[simp] theorem State.respond_outlen (s : State) (r : BusResponse) : (s.respond r).outlen = s.outlen := rfl
@[simp] theorem State.respond_errIdx (s : State) (r : BusResponse) : (s.respond r).errIdx = s.errIdx := rfl
@[simp] theorem State.respond_errVal (s : State) (r : BusResponse) : (s.respond r).errVal = s.errVal := rfl
@[simp] theorem State.respond_acc (s : State) (r : BusResponse) : (s.respond r).acc = s.acc := rfl
@[simp] theorem State.respond_mem (s : State) (r : BusResponse) : (s.respond r).mem = s.mem := rfl
@[simp] theorem State.respond_pending (s : State) (r : BusResponse) : (s.respond r).pending = s.pending := rfl
@[simp] theorem State.respond_response (s : State) (r : BusResponse) : (s.respond r).response = some r := rfl
@[simp] theorem State.respond_draws (s : State) (r : BusResponse) : (s.respond r).draws = s.draws := rfl

/-! ### respondFree -/

@[simp] theorem State.respondFree_param (s : State) : s.respondFree.param = s.param := rfl
@[simp] theorem State.respondFree_engine (s : State) : s.respondFree.engine = s.engine := rfl
@[simp] theorem State.respondFree_done (s : State) : s.respondFree.done = s.done := rfl
@[simp] theorem State.respondFree_err (s : State) : s.respondFree.err = s.err := rfl
@[simp] theorem State.respondFree_errCode (s : State) : s.respondFree.errCode = s.errCode := rfl
@[simp] theorem State.respondFree_cfg0 (s : State) : s.respondFree.cfg0 = s.cfg0 := rfl
@[simp] theorem State.respondFree_cfg1 (s : State) : s.respondFree.cfg1 = s.cfg1 := rfl
@[simp] theorem State.respondFree_nlen (s : State) : s.respondFree.nlen = s.nlen := rfl
@[simp] theorem State.respondFree_llen (s : State) : s.respondFree.llen = s.llen := rfl
@[simp] theorem State.respondFree_outlen (s : State) : s.respondFree.outlen = s.outlen := rfl
@[simp] theorem State.respondFree_errIdx (s : State) : s.respondFree.errIdx = s.errIdx := rfl
@[simp] theorem State.respondFree_errVal (s : State) : s.respondFree.errVal = s.errVal := rfl
@[simp] theorem State.respondFree_acc (s : State) : s.respondFree.acc = s.acc := rfl
@[simp] theorem State.respondFree_mem (s : State) : s.respondFree.mem = s.mem := rfl
@[simp] theorem State.respondFree_pending (s : State) : s.respondFree.pending = s.pending := rfl
@[simp] theorem State.respondFree_response (s : State) : s.respondFree.response = some (.data (Config.freeWord s.draws)) := rfl
@[simp] theorem State.respondFree_draws (s : State) : s.respondFree.draws = s.draws + 1 := rfl

/-! ### resetBlock -/

@[simp] theorem resetBlock_param (s : State) : (resetBlock s).param = s.param := rfl
@[simp] theorem resetBlock_engine (s : State) : (resetBlock s).engine = State.reset.engine := rfl
@[simp] theorem resetBlock_done (s : State) : (resetBlock s).done = State.reset.done := rfl
@[simp] theorem resetBlock_err (s : State) : (resetBlock s).err = State.reset.err := rfl
@[simp] theorem resetBlock_errCode (s : State) : (resetBlock s).errCode = State.reset.errCode := rfl
@[simp] theorem resetBlock_cfg0 (s : State) : (resetBlock s).cfg0 = State.reset.cfg0 := rfl
@[simp] theorem resetBlock_cfg1 (s : State) : (resetBlock s).cfg1 = State.reset.cfg1 := rfl
@[simp] theorem resetBlock_nlen (s : State) : (resetBlock s).nlen = State.reset.nlen := rfl
@[simp] theorem resetBlock_llen (s : State) : (resetBlock s).llen = State.reset.llen := rfl
@[simp] theorem resetBlock_outlen (s : State) : (resetBlock s).outlen = State.reset.outlen := rfl
@[simp] theorem resetBlock_errIdx (s : State) : (resetBlock s).errIdx = State.reset.errIdx := rfl
@[simp] theorem resetBlock_errVal (s : State) : (resetBlock s).errVal = State.reset.errVal := rfl
@[simp] theorem resetBlock_acc (s : State) : (resetBlock s).acc = State.reset.acc := rfl
@[simp] theorem resetBlock_mem (s : State) : (resetBlock s).mem = State.reset.mem := rfl
@[simp] theorem resetBlock_pending (s : State) : (resetBlock s).pending = s.pending := rfl
@[simp] theorem resetBlock_response (s : State) : (resetBlock s).response = State.reset.response := rfl
@[simp] theorem resetBlock_draws (s : State) : (resetBlock s).draws = s.draws := rfl

/-! ### leaveAccumulator and passCycle -/

@[simp] theorem leaveAccumulator_param (n : Nat) (s : State) : (leaveAccumulator n s).param = s.param := by
  unfold leaveAccumulator; split <;> rfl
@[simp] theorem leaveAccumulator_engine (n : Nat) (s : State) : (leaveAccumulator n s).engine = s.engine := by
  unfold leaveAccumulator; split <;> rfl
@[simp] theorem leaveAccumulator_done (n : Nat) (s : State) : (leaveAccumulator n s).done = s.done := by
  unfold leaveAccumulator; split <;> rfl
@[simp] theorem leaveAccumulator_err (n : Nat) (s : State) : (leaveAccumulator n s).err = s.err := by
  unfold leaveAccumulator; split <;> rfl
@[simp] theorem leaveAccumulator_errCode (n : Nat) (s : State) : (leaveAccumulator n s).errCode = s.errCode := by
  unfold leaveAccumulator; split <;> rfl
@[simp] theorem leaveAccumulator_cfg0 (n : Nat) (s : State) : (leaveAccumulator n s).cfg0 = s.cfg0 := by
  unfold leaveAccumulator; split <;> rfl
@[simp] theorem leaveAccumulator_cfg1 (n : Nat) (s : State) : (leaveAccumulator n s).cfg1 = s.cfg1 := by
  unfold leaveAccumulator; split <;> rfl
@[simp] theorem leaveAccumulator_nlen (n : Nat) (s : State) : (leaveAccumulator n s).nlen = s.nlen := by
  unfold leaveAccumulator; split <;> rfl
@[simp] theorem leaveAccumulator_llen (n : Nat) (s : State) : (leaveAccumulator n s).llen = s.llen := by
  unfold leaveAccumulator; split <;> rfl
@[simp] theorem leaveAccumulator_outlen (n : Nat) (s : State) : (leaveAccumulator n s).outlen = s.outlen := by
  unfold leaveAccumulator; split <;> rfl
@[simp] theorem leaveAccumulator_errIdx (n : Nat) (s : State) : (leaveAccumulator n s).errIdx = s.errIdx := by
  unfold leaveAccumulator; split <;> rfl
@[simp] theorem leaveAccumulator_errVal (n : Nat) (s : State) : (leaveAccumulator n s).errVal = s.errVal := by
  unfold leaveAccumulator; split <;> rfl
@[simp] theorem leaveAccumulator_mem (n : Nat) (s : State) : (leaveAccumulator n s).mem = s.mem := by
  unfold leaveAccumulator; split <;> rfl
@[simp] theorem leaveAccumulator_pending (n : Nat) (s : State) : (leaveAccumulator n s).pending = s.pending := by
  unfold leaveAccumulator; split <;> rfl
@[simp] theorem leaveAccumulator_response (n : Nat) (s : State) : (leaveAccumulator n s).response = s.response := by
  unfold leaveAccumulator; split <;> rfl
@[simp] theorem passCycle_param (s : State) : (passCycle s).param = s.param := by
  unfold passCycle; split <;> rfl
@[simp] theorem passCycle_done (s : State) : (passCycle s).done = s.done := by
  unfold passCycle; split <;> rfl
@[simp] theorem passCycle_err (s : State) : (passCycle s).err = s.err := by
  unfold passCycle; split <;> rfl
@[simp] theorem passCycle_errCode (s : State) : (passCycle s).errCode = s.errCode := by
  unfold passCycle; split <;> rfl
@[simp] theorem passCycle_cfg0 (s : State) : (passCycle s).cfg0 = s.cfg0 := by
  unfold passCycle; split <;> rfl
@[simp] theorem passCycle_cfg1 (s : State) : (passCycle s).cfg1 = s.cfg1 := by
  unfold passCycle; split <;> rfl
@[simp] theorem passCycle_nlen (s : State) : (passCycle s).nlen = s.nlen := by
  unfold passCycle; split <;> rfl
@[simp] theorem passCycle_llen (s : State) : (passCycle s).llen = s.llen := by
  unfold passCycle; split <;> rfl
@[simp] theorem passCycle_outlen (s : State) : (passCycle s).outlen = s.outlen := by
  unfold passCycle; split <;> rfl
@[simp] theorem passCycle_errIdx (s : State) : (passCycle s).errIdx = s.errIdx := by
  unfold passCycle; split <;> rfl
@[simp] theorem passCycle_errVal (s : State) : (passCycle s).errVal = s.errVal := by
  unfold passCycle; split <;> rfl
@[simp] theorem passCycle_acc (s : State) : (passCycle s).acc = s.acc := by
  unfold passCycle; split <;> rfl
@[simp] theorem passCycle_mem (s : State) : (passCycle s).mem = s.mem := by
  unfold passCycle; split <;> rfl
@[simp] theorem passCycle_pending (s : State) : (passCycle s).pending = s.pending := by
  unfold passCycle; split <;> rfl
@[simp] theorem passCycle_response (s : State) : (passCycle s).response = s.response := by
  unfold passCycle; split <;> rfl
@[simp] theorem passCycle_draws (s : State) : (passCycle s).draws = s.draws := by
  unfold passCycle; split <;> rfl

/-! ### The views of STATUS and of the operands -/

@[simp] theorem State.isBusy_idle (s : State) (h : s.engine = .idle) : s.isBusy = false := by simp [State.isBusy, h]

@[simp] theorem State.isBusy_busy (s : State) (o : Snapshot) (h : s.engine = .busy o) : s.isBusy = true := by
  simp [State.isBusy, h]

theorem State.isBusy_eq_true (s : State) : s.isBusy = true ↔ ∃ o, s.engine = .busy o := by
  cases h : s.engine <;> simp [State.isBusy, h]

theorem State.isBusy_eq_false (s : State) : s.isBusy = false ↔ s.engine = .idle := by
  cases h : s.engine <;> simp [State.isBusy, h]

theorem State.operands_busy (s : State) (o : Snapshot) (h : s.engine = .busy o) : s.operands = o := by
  simp [State.operands, h]

/-- An accepted command runs on the registers as they stood at acceptance (10_state.md R50). -/
@[simp] theorem State.operands_accept (w : Word) (s : State) : (s.accept w).operands = s.takeSnapshot w := rfl

theorem State.raiseError_eq_withError (s : State) (e : CommandError) : s.raiseError e = s.withError e.code e.idx e.val :=
  rfl

end Sys2Proof.Machine
end

