-- ==== Sys2Proof/Laws/Memory.lean ====
section
/-! SUPPORT. What reading after writing gives, for bytes, words and runs of entries, and that every write keeps the
canonical form. -/

namespace Sys2Proof.Machine

/-! ### Bytes -/

theorem Memory.read_write_same (m : Memory) (a : Nat) (v : Byte) : Memory.read (m.write a v) a = some v := by
  induction m with
  | nil => simp [Memory.write, Memory.read]
  | cons c m ih =>
    obtain ⟨b, w⟩ := c
    unfold Memory.write
    split
    · simp [Memory.read]
    · split
      · simp [Memory.read]
      · simp_all [Memory.read]

theorem Memory.read_write_other (m : Memory) (a b : Nat) (v : Byte) (h : b ≠ a) :
    Memory.read (m.write a v) b = Memory.read m b := by
  induction m with
  | nil => simp [Memory.write, Memory.read, h]
  | cons c m ih =>
    obtain ⟨d, w⟩ := c
    unfold Memory.write
    split
    · simp [Memory.read, h]
    · split
      · next e => subst e; simp [Memory.read, h]
      · simp [Memory.read, ih]

theorem Memory.read_write (m : Memory) (a b : Nat) (v : Byte) :
    Memory.read (m.write a v) b = if b = a then some v else Memory.read m b := by
  split
  · next e => rw [e, Memory.read_write_same]
  · next e => rw [Memory.read_write_other m a b v e]

/-- A store below every listed address goes to the front. -/
theorem Memory.wf_cons_write (c : Host.Cell) (m : Memory) (a : Nat) (v : Byte) (hc : c.1 < a)
    (h : Memory.wf (c :: m) = true) : Memory.wf (c :: m.write a v) = true := by
  induction m generalizing c with
  | nil => obtain ⟨x, y⟩ := c; simpa [Memory.write, Memory.wf] using hc
  | cons d m ih =>
    obtain ⟨x, y⟩ := c
    obtain ⟨z, w⟩ := d
    simp only [Memory.wf, Bool.and_eq_true, decide_eq_true_eq] at h
    unfold Memory.write
    split
    · simp_all [Memory.wf]
    · split
      · next e =>
        subst e
        cases m with
        | nil => simp_all [Memory.wf]
        | cons d m => obtain ⟨p, q⟩ := d; simp_all [Memory.wf]
      · have := ih (z, w) (by simp; omega) h.2
        simp_all [Memory.wf]

/-- Storing a byte keeps the canonical form. -/
theorem Memory.wf_write (m : Memory) (a : Nat) (v : Byte) (h : m.wf = true) : (m.write a v).wf = true := by
  cases m with
  | nil => rfl
  | cons c m =>
    obtain ⟨b, w⟩ := c
    unfold Memory.write
    split
    · simp_all [Memory.wf]
    · split
      · next e =>
        subst e
        cases m with
        | nil => rfl
        | cons d m => obtain ⟨p, q⟩ := d; simp_all [Memory.wf]
      · exact Memory.wf_cons_write _ m a v (by simp; omega) h

/-! ### Words -/

theorem Memory.read_writeWord (m : Memory) (a b : Nat) (v : Word) :
    Memory.read (m.writeWord a v) b =
      if b = a then some (v.extractLsb' 0 8) else if b = a + 1 then some (v.extractLsb' 8 8)
      else if b = a + 2 then some (v.extractLsb' 16 8) else if b = a + 3 then some (v.extractLsb' 24 8)
      else Memory.read m b := by
  simp only [Memory.writeWord, Memory.read_write]
  repeat' split
  all_goals first | rfl | omega

theorem Memory.read_writeWord_outside (m : Memory) (a b : Nat) (v : Word) (h : b < a ∨ a + 4 ≤ b) :
    Memory.read (m.writeWord a v) b = Memory.read m b := by
  rw [Memory.read_writeWord]
  repeat' split
  all_goals first | rfl | omega

theorem bytes_of_word (v : Word) :
    v.extractLsb' 24 8 ++ v.extractLsb' 16 8 ++ v.extractLsb' 8 8 ++ v.extractLsb' 0 8 = v := by
  apply BitVec.eq_of_getLsbD_eq
  intro i hi
  simp only [BitVec.getLsbD_append, BitVec.getLsbD_extractLsb']
  repeat' split
  all_goals
    rw [Bool.eq_iff_iff]
    simp only [Bool.and_eq_true, decide_eq_true_eq]
    constructor
    · rintro ⟨_, h⟩
      first | exact h | (convert h using 2; omega)
    · intro h
      refine ⟨by omega, ?_⟩
      first | exact h | (convert h using 2; omega)

theorem Memory.readWord_writeWord_same (m : Memory) (a : Nat) (v : Word) :
    Memory.readWord (m.writeWord a v) a = some v := by
  simp only [Memory.readWord, Memory.read_writeWord]
  simp [bytes_of_word]

theorem Memory.readWord_congr (m m' : Memory) (a : Nat) (h : ∀ b, a ≤ b → b < a + 4 → Memory.read m b = Memory.read m' b) :
    Memory.readWord m a = Memory.readWord m' a := by
  simp only [Memory.readWord, h a (by omega) (by omega), h (a + 1) (by omega) (by omega),
    h (a + 2) (by omega) (by omega), h (a + 3) (by omega) (by omega)]

theorem Memory.readWord_writeWord_outside (m : Memory) (a b : Nat) (v : Word) (h : b + 4 ≤ a ∨ a + 4 ≤ b) :
    Memory.readWord (m.writeWord a v) b = Memory.readWord m b :=
  Memory.readWord_congr _ _ _ fun c _ _ => Memory.read_writeWord_outside m a c v (by omega)

theorem Memory.readDWord_congr (m m' : Memory) (a : Nat)
    (h : ∀ b, a ≤ b → b < a + 8 → Memory.read m b = Memory.read m' b) : Memory.readDWord m a = Memory.readDWord m' a := by
  simp only [Memory.readDWord, Memory.readWord_congr m m' a fun b _ _ => h b (by omega) (by omega),
    Memory.readWord_congr m m' (a + 4) fun b _ _ => h b (by omega) (by omega)]

/-- A 64-bit entry with a half unwritten has no value (10_state.md R56). -/
theorem Memory.readDWord_none (m : Memory) (a : Nat) (h : m.readWord a = none ∨ m.readWord (a + 4) = none) :
    m.readDWord a = none := by
  unfold Memory.readDWord
  rcases h with h | h <;> simp [h]

/-- Storing a word keeps the canonical form. -/
theorem Memory.wf_writeWord (m : Memory) (a : Nat) (v : Word) (h : m.wf = true) : (m.writeWord a v).wf = true :=
  Memory.wf_write _ _ _ (Memory.wf_write _ _ _ (Memory.wf_write _ _ _ (Memory.wf_write _ _ _ h)))

theorem Memory.readWord_isSome (m : Memory) (a : Nat) :
    Memory.readWord m a ≠ none ↔ ∀ b, a ≤ b → b < a + 4 → Memory.read m b ≠ none := by
  constructor
  · intro h b h1 h2 hb
    apply h
    have hc : b = a ∨ b = a + 1 ∨ b = a + 2 ∨ b = a + 3 := by omega
    unfold Memory.readWord
    rcases hc with rfl | rfl | rfl | rfl <;> simp [hb]
  · intro h
    have h0 := h a (by omega) (by omega)
    have h1 := h (a + 1) (by omega) (by omega)
    have h2 := h (a + 2) (by omega) (by omega)
    have h3 := h (a + 3) (by omega) (by omega)
    rw [Option.ne_none_iff_exists'] at h0 h1 h2 h3
    obtain ⟨_, h0⟩ := h0; obtain ⟨_, h1⟩ := h1; obtain ⟨_, h2⟩ := h2; obtain ⟨_, h3⟩ := h3
    simp [Memory.readWord, h0, h1, h2, h3]

/-! ### Runs of 32-bit entries -/

theorem Memory.read_writeEntries_outside (g : Region) (hg : g.entryBytes = 4) (vs : List Word) (k : Nat) (m : Memory)
    (a : Nat) (h : a < g.addr k ∨ g.addr (k + vs.length) ≤ a) :
    Memory.read (Memory.writeEntries g k vs m) a = Memory.read m a := by
  induction vs generalizing k m with
  | nil => rfl
  | cons v vs ih =>
    simp only [Region.addr, hg, List.length_cons] at h ih
    rw [Memory.writeEntries, ih (k + 1) _ (by omega), Memory.read_writeWord_outside]
    simp only [Region.addr, hg]; omega

theorem Memory.readWord_writeEntries (g : Region) (hg : g.entryBytes = 4) (vs : List Word) (k : Nat) (m : Memory) (i : Nat)
    (h : i < vs.length) : Memory.readWord (Memory.writeEntries g k vs m) (g.addr (k + i)) = some vs[i] := by
  induction vs generalizing k m i with
  | nil => simp at h
  | cons v vs ih =>
    rw [Memory.writeEntries]
    cases i with
    | zero =>
      rw [Memory.readWord_congr _ (Memory.writeWord m (g.addr k) v), Nat.add_zero, Memory.readWord_writeWord_same]
      · rfl
      · intro b _ _
        apply Memory.read_writeEntries_outside g hg
        simp only [Region.addr, hg] at *; omega
    | succ i =>
      have := ih (k + 1) (m.writeWord (g.addr k) v) i (by simpa using h)
      rw [show k + (i + 1) = k + 1 + i by omega, this]; rfl

/-- Storing a run of entries keeps the canonical form. -/
theorem Memory.wf_writeEntries (g : Region) (vs : List Word) (k : Nat) (m : Memory) (h : m.wf = true) :
    (Memory.writeEntries g k vs m).wf = true := by
  induction vs generalizing k m with
  | nil => exact h
  | cons v vs ih => exact ih _ _ (Memory.wf_writeWord _ _ _ h)

end Sys2Proof.Machine
end

