-- ==== Sys2Proof/Laws/Scan.lean ====
section
/-! SUPPORT. What a command's checks and scans can answer: one lemma for each shared way of stopping. -/

namespace Sys2Proof.Machine

@[simp] theorem except_ok_bind {ε α β : Type} (a : α) (f : α → Except ε β) : ((Except.ok a : Except ε α) >>= f) = f a := rfl

@[simp] theorem except_error_bind {ε α β : Type} (e : ε) (f : α → Except ε β) :
    ((Except.error e : Except ε α) >>= f) = Except.error e := rfl

@[simp] theorem except_pure {ε α : Type} (a : α) : (pure a : Except ε α) = Except.ok a := rfl

/-- A sequence of two steps succeeds when both do. -/
theorem bind_eq_ok {ε α β : Type} (x : Except ε α) (f : α → Except ε β) (b : β) :
    (x >>= f) = .ok b ↔ ∃ a, x = .ok a ∧ f a = .ok b := by
  cases x <;> simp

/-- A sequence of two steps stops where the first does, or where the second does. -/
theorem bind_eq_error {ε α β : Type} (x : Except ε α) (f : α → Except ε β) (e : ε) :
    (x >>= f) = .error e ↔ x = .error e ∨ ∃ a, x = .ok a ∧ f a = .error e := by
  cases x <;> simp

/-- A check that holds lets the command go on. -/
@[simp] theorem require_true (e : CommandError) : require true e = .ok () := rfl

/-- A check that fails raises its error. -/
@[simp] theorem require_false (e : CommandError) : require false e = .error (.raise e) := rfl

theorem require_eq_ok (b : Bool) (e : CommandError) (u : Unit) : require b e = .ok u ↔ b = true := by
  cases b <;> simp

theorem require_eq_error (b : Bool) (e : CommandError) (x : Stop) :
    require b e = .error x ↔ b = false ∧ x = .raise e := by
  cases b <;> simp [eq_comm]

/-- A scan succeeds with exactly the results of its steps. -/
theorem scan_eq_ok {α : Type} (f : Nat → Except Stop α) (k n : Nat) (as : List α) :
    scan f k n = .ok as ↔ as.length = n ∧ ∀ i (h : i < as.length), f (k + i) = .ok as[i] := by
  induction n generalizing k as with
  | zero =>
    simp only [scan, Except.ok.injEq]
    constructor
    · rintro rfl; simp
    · rintro ⟨h, -⟩; exact (List.length_eq_zero_iff.mp h).symm
  | succ n ih =>
    constructor
    · intro h
      simp only [scan] at h
      split at h
      · exact absurd h (by simp)
      · next a ha =>
        split at h
        · exact absurd h (by simp)
        · next bs hb =>
          obtain rfl : a :: bs = as := by simpa using h
          obtain ⟨h1, h2⟩ := (ih (k + 1) bs).mp hb
          refine ⟨by simp [h1], fun i hi => ?_⟩
          cases i with
          | zero => simpa using ha
          | succ i =>
            have := h2 i (by simpa using hi)
            rwa [show k + (i + 1) = k + 1 + i by omega]
    · rintro ⟨h1, h2⟩
      cases as with
      | nil => simp at h1
      | cons a bs =>
        have ha : f k = .ok a := h2 0 (by simp)
        have hb : scan f (k + 1) n = .ok bs := (ih _ _).mpr ⟨by simpa using h1, fun i hi => by
          have := h2 (i + 1) (by simpa using hi)
          rwa [show k + (i + 1) = k + 1 + i by omega] at this⟩
        simp [scan, ha, hb]

/-- A scan stops as its first stopping step does. -/
theorem scan_eq_error {α : Type} (f : Nat → Except Stop α) (k n : Nat) (e : Stop) :
    scan f k n = .error e ↔ ∃ i, i < n ∧ f (k + i) = .error e ∧ ∀ j, j < i → ∃ a, f (k + j) = .ok a := by
  induction n generalizing k with
  | zero => simp [scan]
  | succ n ih =>
    constructor
    · intro h
      simp only [scan] at h
      split at h
      · next x hx =>
        obtain rfl : x = e := by simpa using h
        exact ⟨0, by omega, hx, by simp⟩
      · next a ha =>
        split at h
        · next x hx =>
          obtain rfl : x = e := by simpa using h
          obtain ⟨i, hi, he, hj⟩ := (ih (k + 1)).mp hx
          refine ⟨i + 1, by omega, by rwa [show k + (i + 1) = k + 1 + i by omega], fun j hji => ?_⟩
          cases j with
          | zero => exact ⟨a, ha⟩
          | succ j =>
            rw [show k + (j + 1) = k + 1 + j by omega]
            exact hj j (by omega)
        · exact absurd h (by simp)
    · rintro ⟨i, hi, he, hj⟩
      cases i with
      | zero =>
        have : f k = .error e := by simpa using he
        simp [scan, this]
      | succ i =>
        obtain ⟨a, ha⟩ := hj 0 (by omega)
        have hs : scan f (k + 1) n = .error e := (ih (k + 1)).mpr ⟨i, by omega, by
          rwa [show k + 1 + i = k + (i + 1) by omega], fun j hji => by
          rw [show k + 1 + j = k + (j + 1) by omega]; exact hj (j + 1) (by omega)⟩
        simp [scan, show f k = .ok a by simpa using ha, hs]

/-- A scan whose steps all succeed succeeds. -/
theorem scan_of_all {α : Type} (f : Nat → Except Stop α) (n : Nat) (h : ∀ i < n, ∃ a, f i = .ok a) :
    ∃ as, scan f 0 n = .ok as := by
  cases hs : scan f 0 n with
  | ok as => exact ⟨as, rfl⟩
  | error e =>
    obtain ⟨i, hi, he, -⟩ := (scan_eq_error _ _ _ _).mp hs
    obtain ⟨a, ha⟩ := h i hi
    simp [ha] at he

/-- A scan depends on its steps within its range only. -/
theorem scan_congr {α : Type} (f g : Nat → Except Stop α) (k n : Nat) (h : ∀ i, k ≤ i → i < k + n → f i = g i) :
    scan f k n = scan g k n := by
  induction n generalizing k with
  | zero => rfl
  | succ n ih => rw [scan, scan, h k (by omega) (by omega), ih (k + 1) fun i h1 h2 => h i (by omega) (by omega)]

/-- What reading a 32-bit entry can answer. -/
theorem entryWord_eq_ok (s : State) (g : Region) (i : Nat) (v : Word) :
    s.entryWord g i = .ok v ↔ s.mem.readWord (g.addr i) = some v := by
  unfold State.entryWord; split <;> simp_all

theorem entryWord_eq_error (s : State) (g : Region) (i : Nat) (e : Stop) :
    s.entryWord g i = .error e ↔ s.mem.readWord (g.addr i) = none ∧ e = .fault (.neverWritten g i) := by
  unfold State.entryWord; split <;> simp_all [@eq_comm _ _ e]

/-- What reading a 64-bit entry can answer. -/
theorem entryDWord_eq_ok (s : State) (g : Region) (i : Nat) (v : DWord) :
    s.entryDWord g i = .ok v ↔ s.mem.readDWord (g.addr i) = some v := by
  unfold State.entryDWord; split <;> simp_all

theorem entryDWord_eq_error (s : State) (g : Region) (i : Nat) (e : Stop) :
    s.entryDWord g i = .error e ↔ s.mem.readDWord (g.addr i) = none ∧ e = .fault (.neverWritten g i) := by
  unfold State.entryDWord; split <;> simp_all [@eq_comm _ _ e]

/-! ### The shared configuration checks -/

theorem checkDataBits_eq_ok (d : Nat) (u : Unit) : checkDataBits d = .ok u ↔ 1 ≤ d ∧ d ≤ 16 := by
  simp only [checkDataBits, require_eq_ok, Bool.and_eq_true, decide_eq_true_eq]; rfl

theorem checkFracBits_eq_ok (f : Nat) (u : Unit) : checkFracBits f = .ok u ↔ 1 ≤ f ∧ f ≤ 63 := by
  simp only [checkFracBits, require_eq_ok, Bool.and_eq_true, decide_eq_true_eq]; rfl

theorem checkAccBits_eq_ok (a : Nat) (u : Unit) : checkAccBits a = .ok u ↔ 1 ≤ a ∧ a ≤ 64 := by
  simp only [checkAccBits, require_eq_ok, Bool.and_eq_true, decide_eq_true_eq]; rfl

theorem checkCoeffBits_eq_ok (c : Nat) (u : Unit) : checkCoeffBits c = .ok u ↔ c = 8 ∨ c = 16 ∨ c = 32 := by
  simp [checkCoeffBits, require_eq_ok, supportedCoeffWidth, or_assoc]

theorem checkNotEmpty_eq_ok (l : Nat) (u : Unit) : checkNotEmpty l = .ok u ↔ 1 ≤ l := by
  simp [checkNotEmpty, require_eq_ok]; omega

theorem checkSampleCount_eq_ok (n m : Nat) (u : Unit) : checkSampleCount n m = .ok u ↔ n ≤ m := by
  simp [checkSampleCount, require_eq_ok]

theorem checkTapCount_eq_ok (n m : Nat) (u : Unit) : checkTapCount n m = .ok u ↔ n ≤ m := by
  simp [checkTapCount, require_eq_ok]

/-! ### The same checks when they fail -/

theorem require_of_not {b : Bool} {p : Prop} (e : CommandError) (hb : b = true ↔ p) (h : ¬p) :
    require b e = .error (.raise e) := by
  rw [require_eq_error]; exact ⟨by rw [← Bool.not_eq_true, hb]; exact h, rfl⟩

theorem checkDataBits_fails (d : Nat) (h : ¬(1 ≤ d ∧ d ≤ 16)) :
    checkDataBits d = .error (.raise { code := .invalidBitWidth, idx := 0, val := BitVec.ofNat 64 d }) :=
  require_of_not _ (by simp only [Bool.and_eq_true, decide_eq_true_eq]; rfl) h

theorem checkFracBits_fails (f : Nat) (h : ¬(1 ≤ f ∧ f ≤ 63)) :
    checkFracBits f = .error (.raise { code := .invalidBitWidth, idx := 1, val := BitVec.ofNat 64 f }) :=
  require_of_not _ (by simp only [Bool.and_eq_true, decide_eq_true_eq]; rfl) h

theorem checkAccBits_fails (a : Nat) (h : ¬(1 ≤ a ∧ a ≤ 64)) :
    checkAccBits a = .error (.raise { code := .invalidBitWidth, idx := 2, val := BitVec.ofNat 64 a }) :=
  require_of_not _ (by simp only [Bool.and_eq_true, decide_eq_true_eq]; rfl) h

theorem checkCoeffBits_fails (c : Nat) (h : ¬(c = 8 ∨ c = 16 ∨ c = 32)) :
    checkCoeffBits c = .error (.raise { code := .unsupportedCoeffWidth, idx := 0, val := BitVec.ofNat 64 c }) :=
  require_of_not _ (by simp [supportedCoeffWidth, or_assoc]) h

theorem checkNotEmpty_fails (l : Nat) (h : l = 0) :
    checkNotEmpty l = .error (.raise { code := .emptyFilter, idx := 0, val := 0#64 }) := by
  subst h; rfl

theorem checkSampleCount_fails (n m : Nat) (h : m < n) :
    checkSampleCount n m = .error (.raise { code := .lengthOutOfRange, idx := 0, val := BitVec.ofNat 64 n }) :=
  require_of_not (p := n ≤ m) _ (by simp) (by omega)

theorem checkTapCount_fails (l m : Nat) (h : m < l) :
    checkTapCount l m = .error (.raise { code := .lengthOutOfRange, idx := 1, val := BitVec.ofNat 64 l }) :=
  require_of_not (p := l ≤ m) _ (by simp) (by omega)

end Sys2Proof.Machine
end

