-- ==== Sys2Proof/Laws/Commands.lean ====
section
/-! SUPPORT. What each command can answer, said once: the words it stores when it succeeds, the errors it can raise, and
how `finish` ends it. -/

namespace Sys2Proof.Machine

/-! ### Ending a command -/

/-- A command answers a next state when its rule succeeded or raised an error. -/
theorem finish_eq_next (s t : State) (r : Except Stop State) :
    finish s r = .next t ↔ (∃ u, r = .ok u ∧ t = u.complete) ∨ ∃ e, r = .error (.raise e) ∧ t = s.raiseError e := by
  rcases r with (e | f) | u <;> simp [finish, eq_comm]

/-- A command faults when its rule did. -/
theorem finish_eq_fault (s : State) (r : Except Stop State) (f : Fault) :
    finish s r = .fault f ↔ r = .error (.fault f) := by
  rcases r with (e | f) | u <;> simp [finish]

/-- No command is refused. -/
theorem finish_ne_refused (s : State) (r : Except Stop State) (x : Refusal) : finish s r ≠ .refused x := by
  rcases r with (e | f) | u <;> simp [finish]

/-! ### QUANTIZE -/

theorem finiteTap_eq_ok (s : State) (k : Nat) (b : DWord) :
    finiteTap s k = .ok b ↔ s.rawTapIs k b ∧ finite64 b = true := by
  simp [finiteTap, bind_eq_ok, entryDWord_eq_ok, require_eq_ok, State.rawTapIs, Region.addr, Region.base,
    Region.entryBytes]

theorem finiteTap_eq_error (s : State) (k : Nat) (x : Stop) :
    finiteTap s k = .error x ↔ (s.mem.readDWord (0x01000 + 8 * k) = none ∧ x = .fault (.neverWritten .rawTap k)) ∨
      ∃ b, s.rawTapIs k b ∧ finite64 b = false ∧
        x = .raise { code := .nonFiniteCoefficient, idx := k, val := b } := by
  simp [finiteTap, bind_eq_error, entryDWord_eq_ok, entryDWord_eq_error, require_eq_error, State.rawTapIs, Region.addr,
    Region.base, Region.entryBytes]

theorem rangedTap_eq_ok (c f : Nat) (s : State) (k : Nat) (u : Unit) :
    rangedTap c f s k = .ok u ↔ ∃ b, s.rawTapIs k b ∧ tapInRange c f b = true := by
  simp [rangedTap, bind_eq_ok, entryDWord_eq_ok, require_eq_ok, State.rawTapIs, Region.addr, Region.base,
    Region.entryBytes]

theorem rangedTap_eq_error (c f : Nat) (s : State) (k : Nat) (x : Stop) :
    rangedTap c f s k = .error x ↔ (s.mem.readDWord (0x01000 + 8 * k) = none ∧ x = .fault (.neverWritten .rawTap k)) ∨
      ∃ b, s.rawTapIs k b ∧ tapInRange c f b = false ∧
        x = .raise { code := .coefficientOutOfRange, idx := k, val := b } := by
  simp [rangedTap, bind_eq_error, entryDWord_eq_ok, entryDWord_eq_error, require_eq_error, State.rawTapIs, Region.addr,
    Region.base, Region.entryBytes]

theorem checkRounding_eq_ok (q : Nat) (rnd : Rat → Int) : checkRounding q = .ok rnd ↔ roundingOf q = some rnd := by
  unfold checkRounding; split <;> simp_all

/-- QUANTIZE's configuration checks pass exactly when its fields are legal. -/
theorem quantizeConfig_eq_ok (s : State) (rnd : Rat → Int) :
    quantizeConfig s.operands s.lmax = .ok rnd ↔ s.QuantizeLegal ∧ roundingOf s.operands.qround = some rnd := by
  have hq : ∀ q, q < 4 → (q ≠ 3 ↔ roundingOf q ≠ none) := by
    intro q hq
    rcases q with _ | _ | _ | _ | q <;> simp [roundingOf]
    omega
  have hlt : s.operands.qround < 4 := (BitVec.extractLsb' 2 2 s.operands.cfg1).isLt
  simp only [quantizeConfig, bind_eq_ok, checkFracBits_eq_ok, checkCoeffBits_eq_ok, checkRounding_eq_ok,
    checkNotEmpty_eq_ok, checkTapCount_eq_ok, except_pure, Except.ok.injEq]
  constructor
  · rintro ⟨_, hf, _, hc, r, hr, _, hn, _, hl, rfl⟩
    exact ⟨⟨hf, hc, (hq _ hlt).mpr (by simp [hr]), hn, hl⟩, hr⟩
  · rintro ⟨⟨hf, hc, -, hn, hl⟩, hr⟩
    exact ⟨(), hf, (), hc, rnd, hr, (), hn, (), hl, rfl⟩

/-- QUANTIZE succeeds exactly when its fields are legal and every tap is written, finite and, in strict mode, in range;
then it stores each tap quantized. -/
theorem quantizedWords_eq_ok (s : State) (ws : List Word) :
    quantizedWords s = .ok ws ↔ ∃ (rnd : Rat → Int) (taps : List DWord), s.QuantizeLegal ∧ roundingOf s.operands.qround = some rnd ∧
      taps.length = s.operands.tapCount ∧
      (∀ k (h : k < taps.length), s.rawTapIs k taps[k] ∧ finite64 taps[k] = true) ∧
      (s.operands.strict = true → ∀ k (h : k < taps.length),
        tapInRange s.operands.coeffBits s.operands.fracBits taps[k] = true) ∧
      ws = taps.map (quantizeTap rnd s.operands.coeffBits s.operands.fracBits) := by
  simp only [quantizedWords, bind_eq_ok, quantizeConfig_eq_ok, scan_eq_ok, finiteTap_eq_ok, rangedTap_eq_ok, except_pure,
    Except.ok.injEq, Nat.zero_add]
  constructor
  · rintro ⟨rnd, ⟨hl, hr⟩, taps, ⟨hn, ht⟩, us, ⟨hm, hu⟩, rfl⟩
    refine ⟨rnd, taps, hl, hr, hn, ht, fun hs k hk => ?_, rfl⟩
    rw [if_pos hs] at hm
    obtain ⟨b, hb, hr⟩ := hu k (by omega)
    have : b = taps[k] := by
      have := (ht k hk).1
      simp only [State.rawTapIs] at hb this
      simpa [hb] using this
    rwa [← this]
  · rintro ⟨rnd, taps, hl, hr, hn, ht, hs, rfl⟩
    refine ⟨rnd, ⟨hl, hr⟩, taps, ⟨hn, ht⟩, List.replicate (if s.operands.strict then s.operands.tapCount else 0) (),
      ⟨by simp, fun k hk => ?_⟩, rfl⟩
    by_cases h : s.operands.strict = true
    · have hk' : k < taps.length := by simpa [h, hn] using hk
      exact ⟨taps[k], (ht k hk').1, hs h k hk'⟩
    · simp [h] at hk

/-- The errors QUANTIZE can raise (60_exceptions.md R250). -/
theorem quantizedWords_raises (s : State) (e : CommandError) (h : quantizedWords s = .error (.raise e)) :
    e.code = .invalidBitWidth ∨ e.code = .unsupportedCoeffWidth ∨ e.code = .invalidConfig ∨ e.code = .emptyFilter ∨
      e.code = .lengthOutOfRange ∨ e.code = .nonFiniteCoefficient ∨ e.code = .coefficientOutOfRange := by
  simp only [quantizedWords, quantizeConfig, bind_eq_error, checkFracBits, checkCoeffBits, checkNotEmpty, checkTapCount,
    require_eq_error, scan_eq_error, finiteTap_eq_error, rangedTap_eq_error, except_pure] at h
  rcases h with (h | ⟨_, -, h | ⟨_, -, h | ⟨_, -, h | ⟨_, -, h | ⟨_, -, h⟩⟩⟩⟩⟩) | ⟨_, -, h | ⟨_, -, h | ⟨_, -, h⟩⟩⟩
  all_goals (try unfold checkRounding at h)
  all_goals (try split at h)
  all_goals (try obtain ⟨i, -, h, -⟩ := h)
  all_goals simp_all
  all_goals
    obtain ⟨b, -, -, rfl⟩ := h
    simp

/-- QUANTIZE faults only where a tap it comes to was never written (10_state.md R56). -/
theorem quantizedWords_faults (s : State) (f : Fault) (h : quantizedWords s = .error (.fault f)) :
    ∃ k, k < s.operands.tapCount ∧ f = .neverWritten .rawTap k ∧ s.mem.readDWord (0x01000 + 8 * k) = none := by
  simp only [quantizedWords, quantizeConfig, bind_eq_error, checkFracBits, checkCoeffBits, checkNotEmpty, checkTapCount,
    require_eq_error, scan_eq_error, finiteTap_eq_error, rangedTap_eq_error, except_pure] at h
  rcases h with (h | ⟨_, -, h | ⟨_, -, h | ⟨_, -, h | ⟨_, -, h | ⟨_, -, h⟩⟩⟩⟩⟩) | ⟨_, -, h | ⟨_, -, h | ⟨_, -, h⟩⟩⟩
  all_goals (try unfold checkRounding at h)
  all_goals (try split at h)
  all_goals (try obtain ⟨i, hi, h, -⟩ := h)
  all_goals simp_all

/-! ### NORMALIZE -/

theorem finiteSample_eq_ok (z : Bool) (s : State) (i : Nat) (b : DWord) :
    finiteSample z s i = .ok b ↔ s.rawSampleIs i b ∧ (z || finite64 b) = true := by
  simp [finiteSample, bind_eq_ok, entryDWord_eq_ok, require_eq_ok, State.rawSampleIs, Region.addr, Region.base,
    Region.entryBytes]

theorem finiteSample_eq_error (z : Bool) (s : State) (i : Nat) (x : Stop) :
    finiteSample z s i = .error x ↔
      (s.mem.readDWord (0x08000 + 8 * i) = none ∧ x = .fault (.neverWritten .rawSample i)) ∨
      ∃ b, s.rawSampleIs i b ∧ (z || finite64 b) = false ∧
        x = .raise { code := .nonFiniteSample, idx := i, val := b } := by
  simp [finiteSample, bind_eq_error, entryDWord_eq_ok, entryDWord_eq_error, require_eq_error, State.rawSampleIs,
    Region.addr, Region.base, Region.entryBytes]

theorem normalizeConfig_eq_ok (s : State) (u : Unit) :
    normalizeConfig s.operands s.nmax = .ok u ↔ s.NormalizeLegal := by
  simp only [normalizeConfig, bind_eq_ok, checkDataBits_eq_ok, checkSampleCount_eq_ok]
  exact ⟨fun ⟨_, h, h'⟩ => ⟨h, h'⟩, fun h => ⟨(), h.data, h.samples⟩⟩

/-- NORMALIZE succeeds exactly when its fields are legal and every raw sample is written and finite; then it stores each
sample rounded and clamped. -/
theorem normalizedWords_eq_ok (s : State) (ws : List Word) :
    normalizedWords s = .ok ws ↔ ∃ raw : List DWord, s.NormalizeLegal ∧ raw.length = s.operands.sampleCount ∧
      (∀ i (h : i < raw.length), s.rawSampleIs i raw[i] ∧ (s.operands.intSamples || finite64 raw[i]) = true) ∧
      ws = raw.map (normalizeSample s.operands.intSamples s.operands.dataBits) := by
  simp only [normalizedWords, bind_eq_ok, normalizeConfig_eq_ok, scan_eq_ok, finiteSample_eq_ok, except_pure,
    Except.ok.injEq, Nat.zero_add]
  constructor
  · rintro ⟨_, hl, raw, ⟨hn, h⟩, rfl⟩; exact ⟨raw, hl, hn, h, rfl⟩
  · rintro ⟨raw, hl, hn, h, rfl⟩; exact ⟨(), hl, raw, ⟨hn, h⟩, rfl⟩

/-- The errors NORMALIZE can raise (60_exceptions.md R250). -/
theorem normalizedWords_raises (s : State) (e : CommandError) (h : normalizedWords s = .error (.raise e)) :
    e.code = .invalidBitWidth ∨ e.code = .lengthOutOfRange ∨ e.code = .nonFiniteSample := by
  simp only [normalizedWords, normalizeConfig, bind_eq_error, checkDataBits, checkSampleCount, require_eq_error,
    scan_eq_error, finiteSample_eq_error, except_pure] at h
  rcases h with (h | ⟨_, -, h⟩) | ⟨_, -, h | ⟨_, -, h⟩⟩
  all_goals (try obtain ⟨i, -, h, -⟩ := h)
  all_goals simp_all
  obtain ⟨b, -, -, rfl⟩ := h
  simp

/-- NORMALIZE faults only where a sample it comes to was never written (10_state.md R56). -/
theorem normalizedWords_faults (s : State) (f : Fault) (h : normalizedWords s = .error (.fault f)) :
    ∃ i, i < s.operands.sampleCount ∧ f = .neverWritten .rawSample i ∧ s.mem.readDWord (0x08000 + 8 * i) = none := by
  simp only [normalizedWords, normalizeConfig, bind_eq_error, checkDataBits, checkSampleCount, require_eq_error,
    scan_eq_error, finiteSample_eq_error, except_pure] at h
  rcases h with (h | ⟨_, -, h⟩) | ⟨_, -, h | ⟨_, -, h⟩⟩
  all_goals (try obtain ⟨i, hi, h, -⟩ := h)
  all_goals simp_all

/-! ### CONVOLVE -/

theorem rangedCoef_eq_ok (c : Nat) (s : State) (k : Nat) (q : Int) :
    rangedCoef c s k = .ok q ↔ ∃ v, s.coefIs k v ∧ coefMin c ≤ v.toInt ∧ v.toInt ≤ coefMax c ∧ q = v.toInt := by
  simp [rangedCoef, bind_eq_ok, entryWord_eq_ok, require_eq_ok, State.coefIs, Region.addr, Region.base,
    Region.entryBytes, and_assoc, @eq_comm _ q]

theorem rangedCoef_eq_error (c : Nat) (s : State) (k : Nat) (x : Stop) :
    rangedCoef c s k = .error x ↔ (s.mem.readWord (0x02000 + 4 * k) = none ∧ x = .fault (.neverWritten .coef k)) ∨
      ∃ v, s.coefIs k v ∧ ¬(coefMin c ≤ v.toInt ∧ v.toInt ≤ coefMax c) ∧
        x = .raise { code := .qCoefOutOfRange, idx := k, val := BitVec.ofInt 64 v.toInt } := by
  simp only [rangedCoef, bind_eq_error, entryWord_eq_ok, entryWord_eq_error, require_eq_error, State.coefIs, Region.addr,
    Region.base, Region.entryBytes, ← Bool.decide_and, decide_eq_false_iff_not, except_pure]
  simp

theorem rangedSample_eq_ok (d : Nat) (s : State) (i : Nat) (x : Int) :
    rangedSample d s i = .ok x ↔ ∃ v, s.sampleIs i v ∧ (v.toNat : Int) ≤ sampleMax d ∧ x = v.toNat := by
  simp [rangedSample, bind_eq_ok, entryWord_eq_ok, require_eq_ok, State.sampleIs, Region.addr, Region.base,
    Region.entryBytes, @eq_comm _ x]

theorem rangedSample_eq_error (d : Nat) (s : State) (i : Nat) (x : Stop) :
    rangedSample d s i = .error x ↔ (s.mem.readWord (0x10000 + 4 * i) = none ∧ x = .fault (.neverWritten .sample i)) ∨
      ∃ v, s.sampleIs i v ∧ sampleMax d < (v.toNat : Int) ∧
        x = .raise { code := .sampleOutOfRange, idx := i, val := zext64 v.toNat } := by
  simp [rangedSample, bind_eq_error, entryWord_eq_ok, entryWord_eq_error, require_eq_error, State.sampleIs, Region.addr,
    Region.base, Region.entryBytes]

theorem convolveConfig_eq_ok (s : State) (u : Unit) :
    convolveConfig s.operands s.nmax s.lmax = .ok u ↔ s.ConvolveLegal := by
  simp only [convolveConfig, bind_eq_ok, checkDataBits_eq_ok, checkFracBits_eq_ok, checkAccBits_eq_ok,
    checkCoeffBits_eq_ok, checkNotEmpty_eq_ok, checkSampleCount_eq_ok, checkTapCount_eq_ok]
  constructor
  · rintro ⟨_, hd, _, hf, _, ha, _, hc, _, hn, _, hs, hl⟩; exact ⟨hd, hf, ha, hc, ⟨hn, hl⟩, hs⟩
  · rintro ⟨hd, hf, ha, hc, ⟨hn, hl⟩, hs⟩; exact ⟨(), hd, (), hf, (), ha, (), hc, (), hn, (), hs, hl⟩

/-- CONVOLVE succeeds exactly when its fields are legal and every coefficient and sample is written and in range; then
it stores the outputs. -/
theorem convolvedWords_eq_ok (s : State) (ws : List Word) :
    convolvedWords s = .ok ws ↔ ∃ q x : List Int, s.ConvolveLegal ∧ q.length = s.operands.tapCount ∧
      (∀ k (h : k < q.length), ∃ v, s.coefIs k v ∧ coefMin s.operands.coeffBits ≤ v.toInt ∧
        v.toInt ≤ coefMax s.operands.coeffBits ∧ q[k] = v.toInt) ∧
      x.length = s.operands.sampleCount ∧
      (∀ i (h : i < x.length), ∃ v, s.sampleIs i v ∧ (v.toNat : Int) ≤ sampleMax s.operands.dataBits ∧ x[i] = (v.toNat : Int)) ∧
      ws = (List.range (outputCount s.operands.linear s.operands.sampleCount s.operands.tapCount)).map
        (outputWord s.operands q x) := by
  simp only [convolvedWords, bind_eq_ok, convolveConfig_eq_ok, scan_eq_ok, rangedCoef_eq_ok, rangedSample_eq_ok,
    except_pure, Except.ok.injEq, Nat.zero_add]
  constructor
  · rintro ⟨_, hl, q, ⟨hn, h⟩, x, ⟨hn', h'⟩, rfl⟩; exact ⟨q, x, hl, hn, h, hn', h', rfl⟩
  · rintro ⟨q, x, hl, hn, h, hn', h', rfl⟩; exact ⟨(), hl, q, ⟨hn, h⟩, x, ⟨hn', h'⟩, rfl⟩

/-- The errors CONVOLVE can raise (60_exceptions.md R250). -/
theorem convolvedWords_raises (s : State) (e : CommandError) (h : convolvedWords s = .error (.raise e)) :
    e.code = .invalidBitWidth ∨ e.code = .unsupportedCoeffWidth ∨ e.code = .emptyFilter ∨ e.code = .lengthOutOfRange ∨
      e.code = .qCoefOutOfRange ∨ e.code = .sampleOutOfRange := by
  simp only [convolvedWords, convolveConfig, bind_eq_error, checkDataBits, checkFracBits, checkAccBits, checkCoeffBits,
    checkNotEmpty, checkSampleCount, checkTapCount, require_eq_error, scan_eq_error, rangedCoef_eq_error,
    rangedSample_eq_error, except_pure] at h
  rcases h with (h | ⟨_, -, h | ⟨_, -, h | ⟨_, -, h | ⟨_, -, h | ⟨_, -, h | ⟨_, -, h⟩⟩⟩⟩⟩⟩) |
    ⟨_, -, h | ⟨_, -, h | ⟨_, -, h⟩⟩⟩
  all_goals (try obtain ⟨i, -, h, -⟩ := h)
  all_goals simp_all
  all_goals
    obtain ⟨v, -, -, rfl⟩ := h
    simp

/-- CONVOLVE faults only where a coefficient or a sample it comes to was never written (10_state.md R56). -/
theorem convolvedWords_faults (s : State) (f : Fault) (h : convolvedWords s = .error (.fault f)) :
    (∃ k, k < s.operands.tapCount ∧ f = .neverWritten .coef k ∧ s.mem.readWord (0x02000 + 4 * k) = none) ∨
    ∃ i, i < s.operands.sampleCount ∧ f = .neverWritten .sample i ∧ s.mem.readWord (0x10000 + 4 * i) = none := by
  simp only [convolvedWords, convolveConfig, bind_eq_error, checkDataBits, checkFracBits, checkAccBits, checkCoeffBits,
    checkNotEmpty, checkSampleCount, checkTapCount, require_eq_error, scan_eq_error, rangedCoef_eq_error,
    rangedSample_eq_error, except_pure] at h
  rcases h with (h | ⟨_, -, h | ⟨_, -, h | ⟨_, -, h | ⟨_, -, h | ⟨_, -, h | ⟨_, -, h⟩⟩⟩⟩⟩⟩) |
    ⟨_, -, h | ⟨_, -, h | ⟨_, -, h⟩⟩⟩
  all_goals (try obtain ⟨i, hi, h, -⟩ := h)
  all_goals simp_all

/-- Nout fits OUT and OUTLEN (00_scope.md R6). -/
theorem outputCount_le (z : Bool) (n l nmax lmax : Nat) (hn : n ≤ nmax) (hl : 1 ≤ l ∧ l ≤ lmax) :
    outputCount z n l ≤ nmax + lmax - 1 := by
  unfold outputCount; repeat' split
  all_goals omega

/-! ### What an executed command leaves -/

/-- Every next state of a command, said once: an error recorded on the state it started from, or its words stored in
its destination memory (and, for CONVOLVE, OUTLEN and the accumulator). -/
theorem exec_next_cases (i : Instr) (s t : State) (h : exec i s = .next t) :
    (∃ e, t = s.raiseError e ∧ e.code ≠ .noError ∧ e.code ≠ .shapeMismatch) ∨
    (i = .quantize ∧ ∃ ws, quantizedWords s = .ok ws ∧
      t = { s with mem := s.mem.writeEntries .coef 0 ws, engine := .idle, done := true }) ∨
    (i = .normalize ∧ ∃ ws, normalizedWords s = .ok ws ∧
      t = { s with mem := s.mem.writeEntries .sample 0 ws, engine := .idle, done := true }) ∨
    (i = .convolve ∧ ∃ ws, convolvedWords s = .ok ws ∧
      t = (leaveAccumulator ws.length
        { s with mem := s.mem.writeEntries .out 0 ws, outlen := BitVec.ofNat 32 ws.length }).complete) := by
  cases i with
  | quantize =>
    rcases (finish_eq_next _ _ _).mp h with ⟨u, hu, rfl⟩ | ⟨e, he, rfl⟩
    · obtain ⟨ws, hw, hu⟩ := (bind_eq_ok _ _ _).mp hu
      obtain rfl : _ = u := by simpa using hu
      exact .inr (.inl ⟨rfl, ws, hw, rfl⟩)
    · rcases (bind_eq_error _ _ _).mp he with he | ⟨_, -, he⟩
      · exact .inl ⟨e, rfl, by rcases quantizedWords_raises s e he with h | h | h | h | h | h | h <;> simp [h]⟩
      · simp at he
  | normalize =>
    rcases (finish_eq_next _ _ _).mp h with ⟨u, hu, rfl⟩ | ⟨e, he, rfl⟩
    · obtain ⟨ws, hw, hu⟩ := (bind_eq_ok _ _ _).mp hu
      obtain rfl : _ = u := by simpa using hu
      exact .inr (.inr (.inl ⟨rfl, ws, hw, rfl⟩))
    · rcases (bind_eq_error _ _ _).mp he with he | ⟨_, -, he⟩
      · exact .inl ⟨e, rfl, by rcases normalizedWords_raises s e he with h | h | h <;> simp [h]⟩
      · simp at he
  | convolve =>
    rcases (finish_eq_next _ _ _).mp h with ⟨u, hu, rfl⟩ | ⟨e, he, rfl⟩
    · obtain ⟨ws, hw, hu⟩ := (bind_eq_ok _ _ _).mp hu
      obtain rfl : _ = u := by simpa using hu
      exact .inr (.inr (.inr ⟨rfl, ws, hw, rfl⟩))
    · rcases (bind_eq_error _ _ _).mp he with he | ⟨_, -, he⟩
      · exact .inl ⟨e, rfl, by rcases convolvedWords_raises s e he with h | h | h | h | h | h <;> simp [h]⟩
      · simp at he

/-- A command faults only at an entry it consumes that was never written (10_state.md R56). -/
theorem exec_eq_fault (i : Instr) (s : State) (f : Fault) (h : exec i s = .fault f) :
    (i = .quantize ∧ ∃ k < s.operands.tapCount, f = .neverWritten .rawTap k ∧ s.mem.readDWord (0x01000 + 8 * k) = none) ∨
    (i = .normalize ∧
      ∃ k < s.operands.sampleCount, f = .neverWritten .rawSample k ∧ s.mem.readDWord (0x08000 + 8 * k) = none) ∨
    (i = .convolve ∧
      ((∃ k < s.operands.tapCount, f = .neverWritten .coef k ∧ s.mem.readWord (0x02000 + 4 * k) = none) ∨
       ∃ k < s.operands.sampleCount, f = .neverWritten .sample k ∧ s.mem.readWord (0x10000 + 4 * k) = none)) := by
  cases i with
  | quantize =>
    rcases (bind_eq_error _ _ _).mp ((finish_eq_fault _ _ _).mp h) with he | ⟨_, -, he⟩
    · obtain ⟨k, h1, h2, h3⟩ := quantizedWords_faults s f he
      exact .inl ⟨rfl, k, h1, h2, h3⟩
    · simp at he
  | normalize =>
    rcases (bind_eq_error _ _ _).mp ((finish_eq_fault _ _ _).mp h) with he | ⟨_, -, he⟩
    · obtain ⟨k, h1, h2, h3⟩ := normalizedWords_faults s f he
      exact .inr (.inl ⟨rfl, k, h1, h2, h3⟩)
    · simp at he
  | convolve =>
    rcases (bind_eq_error _ _ _).mp ((finish_eq_fault _ _ _).mp h) with he | ⟨_, -, he⟩
    · refine .inr (.inr ⟨rfl, ?_⟩)
      rcases convolvedWords_faults s f he with ⟨k, h1, h2, h3⟩ | ⟨k, h1, h2, h3⟩
      · exact .inl ⟨k, h1, h2, h3⟩
      · exact .inr ⟨k, h1, h2, h3⟩
    · simp at he

/-- A command whose words come out stores them and completes. -/
theorem execQuantize_of_ok (s : State) (ws : List Word) (h : quantizedWords s = .ok ws) :
    exec .quantize s = .next { s with mem := s.mem.writeEntries .coef 0 ws, engine := .idle, done := true } := by
  simp [exec, execQuantize, quantized, h, finish, State.complete]

theorem execNormalize_of_ok (s : State) (ws : List Word) (h : normalizedWords s = .ok ws) :
    exec .normalize s = .next { s with mem := s.mem.writeEntries .sample 0 ws, engine := .idle, done := true } := by
  simp [exec, execNormalize, normalized, h, finish, State.complete]

theorem execConvolve_of_ok (s : State) (ws : List Word) (h : convolvedWords s = .ok ws) :
    exec .convolve s = .next (leaveAccumulator ws.length
      { s with mem := s.mem.writeEntries .out 0 ws, outlen := BitVec.ofNat 32 ws.length }).complete := by
  simp [exec, execConvolve, convolved, h, finish]

/-- A command whose words stop with an error leaves the state it started from with that error recorded. -/
theorem execQuantize_of_raise (s : State) (c : ErrorCode) (i : Nat) (v : DWord)
    (h : quantizedWords s = .error (.raise ⟨c, i, v⟩)) : exec .quantize s = .next (s.withError c i v) := by
  simp [exec, execQuantize, quantized, h, finish, State.raiseError_eq_withError]

theorem execNormalize_of_raise (s : State) (c : ErrorCode) (i : Nat) (v : DWord)
    (h : normalizedWords s = .error (.raise ⟨c, i, v⟩)) : exec .normalize s = .next (s.withError c i v) := by
  simp [exec, execNormalize, normalized, h, finish, State.raiseError_eq_withError]

theorem execConvolve_of_raise (s : State) (c : ErrorCode) (i : Nat) (v : DWord)
    (h : convolvedWords s = .error (.raise ⟨c, i, v⟩)) : exec .convolve s = .next (s.withError c i v) := by
  simp [exec, execConvolve, convolved, h, finish, State.raiseError_eq_withError]

/-- A command whose words stop with a fault faults. -/
theorem execQuantize_of_fault (s : State) (f : Fault) (h : quantizedWords s = .error (.fault f)) :
    exec .quantize s = .fault f := by
  simp [exec, execQuantize, quantized, h, finish]

theorem execNormalize_of_fault (s : State) (f : Fault) (h : normalizedWords s = .error (.fault f)) :
    exec .normalize s = .fault f := by
  simp [exec, execNormalize, normalized, h, finish]

theorem execConvolve_of_fault (s : State) (f : Fault) (h : convolvedWords s = .error (.fault f)) :
    exec .convolve s = .fault f := by
  simp [exec, execConvolve, convolved, h, finish]

/-- A legal QROUND selects a rounding (40_quantize.md R143). -/
theorem rounding_of_legal (q : Nat) (h : q < 4) (h3 : q ≠ 3) : ∃ rnd, roundingOf q = some rnd := by
  interval_cases q <;> first | exact ⟨_, rfl⟩ | exact absurd rfl h3

/-- Where a command's configuration is legal, its words are what its scans give. -/
theorem quantizedWords_of_legal (s : State) (h : s.QuantizeLegal) : ∃ rnd, roundingOf s.operands.qround = some rnd ∧
    quantizedWords s = (do
      let taps ← scan (finiteTap s) 0 s.operands.tapCount
      let _ ← scan (rangedTap s.operands.coeffBits s.operands.fracBits s) 0
        (if s.operands.strict then s.operands.tapCount else 0)
      return taps.map (quantizeTap rnd s.operands.coeffBits s.operands.fracBits)) := by
  obtain ⟨rnd, hr⟩ := rounding_of_legal _ (BitVec.extractLsb' 2 2 s.operands.cfg1).isLt h.rounding
  refine ⟨rnd, hr, ?_⟩
  rw [quantizedWords, (quantizeConfig_eq_ok s rnd).mpr ⟨h, hr⟩]; rfl

theorem normalizedWords_of_legal (s : State) (h : s.NormalizeLegal) :
    normalizedWords s = (do
      let raw ← scan (finiteSample s.operands.intSamples s) 0 s.operands.sampleCount
      return raw.map (normalizeSample s.operands.intSamples s.operands.dataBits)) := by
  rw [normalizedWords, (normalizeConfig_eq_ok s ()).mpr h]; rfl

theorem convolvedWords_of_legal (s : State) (h : s.ConvolveLegal) :
    convolvedWords s = (do
      let q ← scan (rangedCoef s.operands.coeffBits s) 0 s.operands.tapCount
      let x ← scan (rangedSample s.operands.dataBits s) 0 s.operands.sampleCount
      return (List.range (outputCount s.operands.linear s.operands.sampleCount s.operands.tapCount)).map
        (outputWord s.operands q x)) := by
  rw [convolvedWords, (convolveConfig_eq_ok s ()).mpr h]; rfl

/-- The strict range check is R141's condition (40_quantize.md R141). -/
theorem tapInRange_iff (c f : Nat) (b : DWord) : tapInRange c f b = true ↔ TapAccepted c f b := by
  simp [tapInRange, TapAccepted, coefMin, coefMax]

/-- No command is refused. -/
theorem exec_ne_refused (i : Instr) (s : State) (x : Refusal) : exec i s ≠ .refused x := by
  cases i <;> exact finish_ne_refused _ _ _

end Sys2Proof.Machine
end

