-- ==== Sys2Proof/Laws/Bus.lean ====
section
/-! SUPPORT. The bus check, the address map, and all that a host transaction can leave. -/

namespace Sys2Proof.Machine

/-- A word is its two fields, one above the other. -/
theorem append_extract {n m : Nat} (x : BitVec (n + m)) : x.extractLsb' m n ++ x.extractLsb' 0 m = x := by
  apply BitVec.eq_of_getLsbD_eq
  intro i hi
  simp only [BitVec.getLsbD_append, BitVec.getLsbD_extractLsb']
  split
  · simp [*]
  · simp only [show i - m < n by omega, decide_true, Bool.true_and, show m + (i - m) = i by omega]

/-- The masks of the RW registers keep the fields and clear the reserved bits (10_state.md R44). -/
theorem write_masks (v : Word) :
    (v &&& 0x1F#32).extractLsb' 0 5 = v.extractLsb' 0 5 ∧ (v &&& 0x1F#32).extractLsb' 5 27 = 0#27 ∧
    (v &&& 0xFFFF#32).extractLsb' 0 16 = v.extractLsb' 0 16 ∧ (v &&& 0xFFFF#32).extractLsb' 16 16 = 0#16 := by
  simp only [BitVec.extractLsb'_and]
  refine ⟨?_, ?_, ?_, ?_⟩
  · rw [show BitVec.extractLsb' 0 5 31#32 = BitVec.allOnes 5 by decide, BitVec.and_allOnes]
  · rw [show BitVec.extractLsb' 5 27 31#32 = 0#27 by decide, BitVec.and_zero]
  · rw [show BitVec.extractLsb' 0 16 65535#32 = BitVec.allOnes 16 by decide, BitVec.and_allOnes]
  · rw [show BitVec.extractLsb' 16 16 65535#32 = 0#16 by decide, BitVec.and_zero]

theorem aligned_iff (off : BitVec 17) : aligned off = true ↔ off.toNat % 4 = 0 := by
  simp [aligned, ← BitVec.toNat_inj]

/-- A transaction passes the bus check exactly when R86 has nothing against it. -/
theorem busCheck_eq_ok (off : BitVec 17) (bits : Nat) (lanes : BitVec 4) (s : State) (p : Place) :
    busCheck off bits lanes s = .ok p ↔
      off.toNat % 4 = 0 ∧ bits = 32 ∧ lanes = 0xF#4 ∧ placeAt s.nmax s.lmax off.toNat = some p := by
  unfold busCheck
  rw [← aligned_iff]
  repeat' split
  all_goals simp_all
  all_goals omega

/-- A bus error is named by a condition of R86 that holds. -/
theorem busCheck_eq_error (off : BitVec 17) (bits : Nat) (lanes : BitVec 4) (s : State) (f : Fault)
    (h : busCheck off bits lanes s = .error f) :
    (f = .busMisaligned off ∧ off.toNat % 4 ≠ 0) ∨ (f = .busNarrow off ∧ bits < 32) ∨
    (f = .busPartialLanes off ∧ lanes ≠ 0xF#4) ∨ (f = .busWide off ∧ 32 < bits) ∨
    (f = .busUnmapped off ∧ placeAt s.nmax s.lmax off.toNat = none) := by
  have ha := aligned_iff off
  unfold busCheck at h
  repeat' split at h
  all_goals simp_all

/-- The bus check fails exactly on R86's conditions. -/
theorem busCheck_fails_iff (off : BitVec 17) (bits : Nat) (lanes : BitVec 4) (s : State) :
    (∃ f, busCheck off bits lanes s = .error f) ↔
      (off.toNat % 4 ≠ 0 ∨ bits < 32 ∨ lanes ≠ 0xF#4 ∨ 32 < bits ∨ placeAt s.nmax s.lmax off.toNat = none) := by
  constructor
  · rintro ⟨f, h⟩
    by_contra hn
    push Not at hn
    obtain ⟨h1, h2, h3, h4, h5⟩ := hn
    obtain ⟨p, hp⟩ := Option.ne_none_iff_exists'.mp h5
    rw [(busCheck_eq_ok off bits lanes s p).mpr ⟨h1, by omega, h3, hp⟩] at h
    simp at h
  · intro h
    cases hb : busCheck off bits lanes s with
    | error f => exact ⟨f, rfl⟩
    | ok p =>
      obtain ⟨h1, h2, h3, h4⟩ := (busCheck_eq_ok off bits lanes s p).mp hb
      rw [h4] at h
      rcases h with h | h | h | h | h
      · exact absurd h1 h
      · omega
      · exact absurd h3 h
      · omega
      · simp at h

/-! ### The address map -/

theorem regAt_none (a : Nat) (h : 0x030 ≤ a) : regAt a = none := by
  unfold regAt
  split <;> first | rfl | omega

theorem regAt_some (a : Nat) (h : a < 0x030) (h4 : a % 4 = 0) : ∃ r, regAt a = some r := by
  have : a = 0 ∨ a = 4 ∨ a = 8 ∨ a = 12 ∨ a = 16 ∨ a = 20 ∨ a = 24 ∨ a = 28 ∨ a = 32 ∨ a = 36 ∨ a = 40 ∨ a = 44 := by omega
  rcases this with h | h | h | h | h | h | h | h | h | h | h | h <;> subst h <;> exact ⟨_, rfl⟩

theorem covers_iff (nmax lmax a : Nat) (g : Region) :
    g.covers nmax lmax a = true ↔ g.base ≤ a ∧ a < g.base + g.entryBytes * g.entries nmax lmax := by
  simp [Region.covers]

theorem regionAt_covers (nmax lmax a : Nat) (g : Region) (h : regionAt nmax lmax a = some g) :
    g.covers nmax lmax a = true := by
  simpa using List.find?_some h

/-- In a legal build the memories do not overlap, so a covered offset lies in just that memory. -/
theorem regionAt_eq_some (nmax lmax a : Nat) (g : Region) (hn : nmax ≤ 4096) (hl : lmax ≤ 512) :
    regionAt nmax lmax a = some g ↔ g.covers nmax lmax a = true := by
  refine ⟨regionAt_covers nmax lmax a g, fun h => ?_⟩
  cases hr : regionAt nmax lmax a with
  | none =>
    have := List.find?_eq_none.mp hr g (by cases g <;> simp)
    exact absurd h this
  | some g' =>
    have h' := regionAt_covers nmax lmax a g' hr
    rw [covers_iff] at h h'
    cases g <;> cases g' <;> first | rfl | (simp only [Region.base, Region.entryBytes, Region.entries] at h h'; omega)

theorem placeAt_mem_iff (nmax lmax a : Nat) (g : Region) (hn : nmax ≤ 4096) (hl : lmax ≤ 512) :
    placeAt nmax lmax a = some (.mem g) ↔ g.covers nmax lmax a = true := by
  rw [← regionAt_eq_some nmax lmax a g hn hl]
  unfold placeAt
  constructor
  · intro h; split at h
    · simp at h
    · split at h <;> simp_all
  · intro h
    have hc := (covers_iff ..).mp (regionAt_covers nmax lmax a g h)
    have : 0x030 ≤ a := by cases g <;> simp only [Region.base] at hc <;> omega
    simp [regAt_none a this, h]

/-- Every byte of a mapped memory word lies in the same memory. -/
theorem covers_word (nmax lmax a j : Nat) (g : Region) (h : g.covers nmax lmax a = true) (h4 : a % 4 = 0) (hj : j < 4) :
    g.covers nmax lmax (a + j) = true := by
  rw [covers_iff] at *
  cases g <;> simp only [Region.base, Region.entryBytes, Region.entries] at * <;> omega

/-! ### What a transaction leaves -/

/-- Every next state of a transaction, said once: only the response and the draw counter moved, or it was a whole-word
write of an IDLE block at a mapped offset. -/
theorem transact_next_cases (t : Transaction) (s u : State) (h : transact t s = .next u) :
    (∃ r d, u = { s with response := r, draws := d }) ∨
    (∃ off v p, t = writeWordAt off v ∧ s.engine = .idle ∧ off.toNat % 4 = 0 ∧
      placeAt s.nmax s.lmax off.toNat = some p ∧ u = (writePlace off v s p).respond .ok) := by
  cases t with
  | read off bits =>
    left
    simp only [transact, busRead, readReg, readMem] at h
    repeat' split at h
    all_goals first
      | (simp only [Host.Outcome.next.injEq] at h; subst h; exact ⟨_, _, rfl⟩)
      | simp at h
  | write off bits lanes v =>
    simp only [transact, busWrite] at h
    split at h
    · exact absurd h (by simp)
    · next p hp =>
      obtain ⟨h1, rfl, rfl, h4⟩ := (busCheck_eq_ok ..).mp hp
      split at h
      · obtain rfl : _ = u := by simpa using h
        exact .inl ⟨_, _, rfl⟩
      · next hb =>
        obtain rfl : _ = u := by simpa using h
        exact .inr ⟨off, v, p, rfl, (s.isBusy_eq_false).mp (by simpa using hb), h1, h4, rfl⟩

/-- While BUSY a transaction moves only the response and the draw counter (10_state.md R52, R53). -/
theorem transact_busy (t : Transaction) (s u : State) (o : Snapshot) (hb : s.engine = .busy o)
    (h : transact t s = .next u) : ∃ r d, u = { s with response := r, draws := d } := by
  rcases transact_next_cases t s u h with h | ⟨_, _, _, _, hi, _⟩
  · exact h
  · simp [hb] at hi

/-- A faulting transaction is a bus error, named by a condition of R86 that it meets. -/
theorem transact_eq_fault (t : Transaction) (s : State) (f : Fault) (h : transact t s = .fault f) :
    ∃ (off : BitVec 17) (bits : Nat), (t = .read off bits ∨ ∃ lanes v, t = .write off bits lanes v) ∧
      ((f = .busMisaligned off ∧ off.toNat % 4 ≠ 0) ∨ (f = .busNarrow off ∧ bits < 32) ∨
       (f = .busPartialLanes off ∧ ∃ lanes v, t = .write off bits lanes v ∧ lanes ≠ 0xF#4) ∨
       (f = .busWide off ∧ 32 < bits) ∨ (f = .busUnmapped off ∧ placeAt s.nmax s.lmax off.toNat = none)) := by
  cases t with
  | read off bits =>
    simp only [transact, busRead, readReg, readMem] at h
    split at h
    · next e he =>
      obtain rfl : e = f := by simpa using h
      refine ⟨off, bits, .inl rfl, ?_⟩
      rcases busCheck_eq_error _ _ _ _ _ he with h | h | ⟨-, h⟩ | h | h
      · exact .inl h
      · exact .inr (.inl h)
      · exact absurd rfl h
      · exact .inr (.inr (.inr (.inl h)))
      · exact .inr (.inr (.inr (.inr h)))
    · split at h <;> simp at h
    · repeat' split at h
      all_goals simp at h
  | write off bits lanes v =>
    simp only [transact, busWrite] at h
    split at h
    · next e he =>
      obtain rfl : e = f := by simpa using h
      refine ⟨off, bits, .inr ⟨lanes, v, rfl⟩, ?_⟩
      rcases busCheck_eq_error _ _ _ _ _ he with h | h | ⟨h, hl⟩ | h | h
      · exact .inl h
      · exact .inr (.inl h)
      · exact .inr (.inr (.inl ⟨h, lanes, v, rfl, hl⟩))
      · exact .inr (.inr (.inr (.inl h)))
      · exact .inr (.inr (.inr (.inr h)))
    · split at h <;> simp at h

/-- A refused transaction reads STATUS while it holds the reserved code. -/
theorem transact_eq_refused (t : Transaction) (s : State) (r : Refusal) (h : transact t s = .refused r) :
    r = .reservedErrorCode ∧ s.errCode = .shapeMismatch := by
  cases t with
  | read off bits =>
    simp only [transact, busRead, readReg, readMem] at h
    split at h
    · simp at h
    · split at h
      · next hc => simp only [Bool.and_eq_true, decide_eq_true_eq] at hc; exact ⟨by simpa using h.symm, hc.2⟩
      · simp at h
    · repeat' split at h
      all_goals simp at h
  | write off bits lanes v =>
    simp only [transact, busWrite] at h
    split at h
    · simp at h
    · split at h <;> simp at h

end Sys2Proof.Machine
end

