-- ==== Sys2Proof/Laws/Arith.lean ====
section
/-! SUPPORT. The arithmetic primitives: clamp, wrap, the shift, the roundings and the words results are stored as. -/

namespace Sys2Proof.Machine

/-! ### clamp -/

theorem clamp_mem (v lo hi : Int) (h : lo ≤ hi) : lo ≤ clamp v lo hi ∧ clamp v lo hi ≤ hi := by
  unfold clamp; repeat' split
  all_goals omega

theorem clamp_of_mem (v lo hi : Int) (h : lo ≤ v ∧ v ≤ hi) : clamp v lo hi = v := by
  unfold clamp; repeat' split
  all_goals omega

theorem sampleMax_nonneg (d : Nat) : 0 ≤ sampleMax d := by
  have : (1 : Int) ≤ 2 ^ d := one_le_pow₀ (by norm_num)
  unfold sampleMax; omega

theorem coefMin_le_coefMax (c : Nat) : coefMin c ≤ coefMax c := by
  have : (1 : Int) ≤ 2 ^ (c - 1) := one_le_pow₀ (by norm_num)
  unfold coefMin coefMax; omega

/-! ### Stored words -/

/-- A coefficient in the C-bit range reads back as itself (30_encoding.md R120). -/
theorem toInt_ofInt_coef (c : Nat) (v : Int) (hc : c ≤ 32) (h1 : 1 ≤ c) (h : coefMin c ≤ v ∧ v ≤ coefMax c) :
    (BitVec.ofInt 32 v).toInt = v := by
  have hp : (2 : Int) ^ (c - 1) ≤ 2 ^ 31 := by exact_mod_cast Nat.pow_le_pow_right (by omega) (by omega : c - 1 ≤ 31)
  unfold coefMin coefMax at h
  rw [BitVec.toInt_ofInt, Int.bmod_eq_of_le] <;> norm_num at * <;> omega

/-- A sample in the D-bit range reads back as itself (30_encoding.md R121). -/
theorem toNat_ofInt_sample (d : Nat) (v : Int) (hd : d ≤ 16) (h : 0 ≤ v ∧ v ≤ sampleMax d) :
    ((BitVec.ofInt 32 v).toNat : Int) = v := by
  have hp : (2 : Int) ^ d ≤ 2 ^ 16 := by exact_mod_cast Nat.pow_le_pow_right (by omega) hd
  unfold sampleMax at h
  rw [BitVec.toNat_ofInt, Int.toNat_of_nonneg (Int.emod_nonneg _ (by norm_num)), Int.emod_eq_of_lt h.1]
  norm_num at *; omega

/-! ### Powers and shifts -/

theorem two_pow_pred (f : Nat) (h : 1 ≤ f) : (2 : Int) ^ f = 2 * 2 ^ (f - 1) := by
  obtain ⟨k, rfl⟩ : ∃ k, f = k + 1 := ⟨f - 1, by omega⟩
  simp [pow_succ, mul_comm]

/-- The wrap is the balanced remainder (00_scope.md R9, R10). -/
theorem wrap_eq (a : Nat) (s : Int) (h : 1 ≤ a) :
    wrap a s = if s % 2 ^ a < 2 ^ (a - 1) then s % 2 ^ a else s % 2 ^ a - 2 ^ a := by
  have hp := two_pow_pred a h
  have hpos : (0 : Int) < 2 ^ (a - 1) := by positivity
  have h0 : 0 ≤ s % 2 ^ a := Int.emod_nonneg _ (by positivity)
  have h1 : s % 2 ^ a < 2 ^ a := Int.emod_lt_of_pos _ (by positivity)
  unfold wrap
  obtain ⟨w, hw⟩ := Int.eq_ofNat_of_zero_le h0
  rw [hw] at h1 ⊢
  have hw2 : w < 2 ^ a := by exact_mod_cast h1
  have hpn : 2 ^ a = 2 * 2 ^ (a - 1) := by exact_mod_cast hp
  rw [Int.toNat_natCast, Nat.testBit_eq_decide_div_mod_eq]
  have hdiv : w / 2 ^ (a - 1) < 2 := by
    rw [Nat.div_lt_iff_lt_mul (by positivity)]; omega
  by_cases hlt : w < 2 ^ (a - 1)
  · have : w / 2 ^ (a - 1) = 0 := Nat.div_eq_of_lt hlt
    have h2 : (w : Int) < 2 ^ (a - 1) := by exact_mod_cast hlt
    simp [this, h2]
  · have : w / 2 ^ (a - 1) = 1 := by
      have : 1 ≤ w / 2 ^ (a - 1) := (Nat.le_div_iff_mul_le (by positivity)).mpr (by omega)
      omega
    have h2 : ¬(w : Int) < 2 ^ (a - 1) := by
      intro hc; exact hlt (by exact_mod_cast hc)
    simp [this, h2]

/-- A value in the A-bit range is not changed by the wrap. -/
theorem wrap_of_mem (a : Nat) (s : Int) (h : 1 ≤ a) (hs : -2 ^ (a - 1) ≤ s ∧ s ≤ 2 ^ (a - 1) - 1) : wrap a s = s := by
  have hp := two_pow_pred a h
  have hpos : (0 : Int) < 2 ^ (a - 1) := by positivity
  rw [wrap_eq a s h]
  by_cases hn : 0 ≤ s
  · rw [Int.emod_eq_of_lt hn (by omega), if_pos (by omega)]
  · have : s % 2 ^ a = s + 2 ^ a := by
      rw [← Int.add_emod_right, Int.emod_eq_of_lt (by omega) (by omega)]
    rw [this, if_neg (by omega)]; omega

/-- The core library's floor is Mathlib's. -/
theorem floor_eq (v : ℚ) : v.floor = ⌊v⌋ := rfl

theorem rndHalfUp_eq (v : ℚ) : rndHalfUp v = ⌊v + 1 / 2⌋ := rfl

theorem rndHalfEven_below (v : ℚ) (h : v - ⌊v⌋ < 1 / 2) : rndHalfEven v = ⌊v⌋ := if_pos h

theorem rndHalfEven_above (v : ℚ) (h : 1 / 2 < v - ⌊v⌋) : rndHalfEven v = ⌊v⌋ + 1 :=
  (if_neg (not_lt.mpr h.le)).trans (if_pos h)

theorem rndHalfEven_tie (v : ℚ) (h : v - ⌊v⌋ = 1 / 2) : rndHalfEven v = if ⌊v⌋ % 2 = 0 then ⌊v⌋ else ⌊v⌋ + 1 :=
  (if_neg (not_lt.mpr h.ge)).trans (if_neg (not_lt.mpr h.le))

/-- A word is a D-bit sample when it is at most 2^D - 1 (00_scope.md R7). -/
theorem le_sampleMax (d n : Nat) : (n : Int) ≤ sampleMax d ↔ n ≤ 2 ^ d - 1 := by
  have h1 : 1 ≤ 2 ^ d := Nat.one_le_two_pow
  have h2 : ((2 ^ d : Nat) : Int) = 2 ^ d := by push_cast; rfl
  simp only [sampleMax]; omega

/-! ### The tap sum -/

/-- The accumulated MAC steps are the sum of the products (42_convolve.md R201, R205). -/
theorem macFrom_eq_sum (x : List Int) (n c : Int) (k : Nat) (q : List Int) (acc : Int) :
    macFrom x n c k q acc =
      acc + ∑ j ∈ Finset.range q.length, q.getD j 0 * paddedSample x (n - (k + j : Nat) + c) := by
  induction q generalizing k acc with
  | nil => simp [macFrom]
  | cons a q ih =>
    rw [macFrom, ih, List.length_cons, Finset.sum_range_succ']
    simp [Nat.add_assoc, Nat.add_comm 1]
    ring

/-- A padded sample is zero or one of the samples (42_convolve.md R202). -/
theorem paddedSample_mem (x : List Int) (i : Int) : paddedSample x i = 0 ∨ paddedSample x i ∈ x := by
  unfold paddedSample
  split
  · next h =>
    right
    have : i.toNat < x.length := by omega
    rw [List.getD_eq_getElem _ _ this]
    exact List.getElem_mem _
  · exact .inl rfl

end Sys2Proof.Machine
end

