-- ==== Sys2Proof/Laws/Ideal.lean ====
section
/-! SUPPORT. The ideal convolution (42_convolve.md R230, R231): how many outputs it has, and when it answers them. -/

namespace Sys2Proof.Machine

@[simp] theorem idealCentered_length (h x : List Rat) : (idealCentered h x).length = x.length := by simp [idealCentered]

@[simp] theorem idealLinear_length (h x : List Rat) : (idealLinear h x).length = x.length + h.length - 1 := by
  simp [idealLinear]

/-- A pass over a list of taps ends without error exactly when every tap passes. -/
theorem tapPass_eq_ok (p : DWord → Bool) (e : Nat → CommandError) (taps : List DWord) (n : Nat) (hn : n ≤ taps.length) :
    (∃ us, scan (fun k => require (p (taps.getD k 0#64)) (e k)) 0 n = .ok us) ↔
      ∀ k (h : k < n), p (taps[k]'(by omega)) = true := by
  constructor
  · rintro ⟨us, h⟩ k hk
    obtain ⟨hl, h⟩ := (scan_eq_ok _ _ _ _).mp h
    have := (require_eq_ok _ _ _).mp (h k (by omega))
    rwa [Nat.zero_add, List.getD_eq_getElem _ _ (by omega)] at this
  · refine fun h => scan_of_all _ _ fun k hk => ⟨(), ?_⟩
    rw [List.getD_eq_getElem _ _ (by omega), require_eq_ok]
    exact h k hk

/-- A pass over a list of taps stops at the lowest tap that fails. -/
theorem tapPass_fails (p : DWord → Bool) (e : Nat → CommandError) (taps : List DWord) (n k : Nat) (hn : n ≤ taps.length)
    (hk : k < n) (hj : ∀ j (h : j < k), p (taps[j]'(by omega)) = true) (hf : p (taps[k]'(by omega)) = false) :
    scan (fun k => require (p (taps.getD k 0#64)) (e k)) 0 n = .error (.raise (e k)) := by
  refine (scan_eq_error _ _ _ _).mpr ⟨k, hk, ?_, fun j h => ⟨(), ?_⟩⟩
  · rw [Nat.zero_add, List.getD_eq_getElem _ _ (by omega), require_eq_error]
    exact ⟨hf, rfl⟩
  · rw [Nat.zero_add, List.getD_eq_getElem _ _ (by omega), require_eq_ok]
    exact hj j h

/-- No taps: EmptyFilter (R231). -/
theorem convolveIdeal_empty (linear strict : Bool) (c f : Nat) (x : List Rat) :
    convolveIdeal linear strict c f [] x = .error (.raise { code := .emptyFilter, idx := 0, val := 0#64 }) := rfl

/-- The lowest non-finite tap is reported (R231). -/
theorem convolveIdeal_nonFinite (linear strict : Bool) (c f : Nat) (taps : List DWord) (x : List Rat) (k : Nat)
    (hk : k < taps.length) (hj : ∀ j (h : j < k), finite64 taps[j] = true) (hf : finite64 taps[k] = false) :
    convolveIdeal linear strict c f taps x =
      .error (.raise { code := .nonFiniteCoefficient, idx := k, val := taps[k] }) := by
  have h1 : checkNotEmpty taps.length = .ok () := (checkNotEmpty_eq_ok _ _).mpr (by omega)
  have h2 := tapPass_fails finite64 (fun k => { code := .nonFiniteCoefficient, idx := k, val := taps.getD k 0#64 }) taps _ k
    (Nat.le_refl _) hk hj hf
  simp only [convolveIdeal, idealChecks, h1, h2, except_ok_bind, except_error_bind]
  rw [List.getD_eq_getElem _ _ hk]

/-- In strict mode, with every tap finite, the lowest tap out of range is reported (R231). -/
theorem convolveIdeal_outOfRange (linear : Bool) (c f : Nat) (taps : List DWord) (x : List Rat) (k : Nat)
    (hk : k < taps.length) (hfin : ∀ j (h : j < taps.length), finite64 taps[j] = true)
    (hj : ∀ j (h : j < k), tapInRange c f taps[j] = true) (hf : tapInRange c f taps[k] = false) :
    convolveIdeal linear true c f taps x =
      .error (.raise { code := .coefficientOutOfRange, idx := k, val := taps[k] }) := by
  have h1 : checkNotEmpty taps.length = .ok () := (checkNotEmpty_eq_ok _ _).mpr (by omega)
  obtain ⟨us, h2⟩ := (tapPass_eq_ok finite64
    (fun k => { code := .nonFiniteCoefficient, idx := k, val := taps.getD k 0#64 }) taps _ (Nat.le_refl _)).mpr hfin
  have h3 := tapPass_fails (tapInRange c f) (fun k => { code := .coefficientOutOfRange, idx := k, val := taps.getD k 0#64 })
    taps _ k (Nat.le_refl _) hk hj hf
  simp only [convolveIdeal, idealChecks, h1, h2, h3, except_ok_bind, except_error_bind, if_true]
  rw [List.getD_eq_getElem _ _ hk]

/-- Otherwise the outputs are the sums over the taps' real values (R230, R231). -/
theorem convolveIdeal_ok (linear strict : Bool) (c f : Nat) (taps : List DWord) (x : List Rat) (h0 : taps ≠ [])
    (hfin : ∀ j (h : j < taps.length), finite64 taps[j] = true)
    (hr : strict = true → ∀ j (h : j < taps.length), tapInRange c f taps[j] = true) :
    convolveIdeal linear strict c f taps x =
      .ok (if linear then idealLinear (taps.map val64) x else idealCentered (taps.map val64) x) := by
  have h1 : checkNotEmpty taps.length = .ok () := (checkNotEmpty_eq_ok _ _).mpr (List.length_pos_iff.mpr h0)
  obtain ⟨us, h2⟩ := (tapPass_eq_ok finite64
    (fun k => { code := .nonFiniteCoefficient, idx := k, val := taps.getD k 0#64 }) taps _ (Nat.le_refl _)).mpr hfin
  obtain ⟨vs, h3⟩ := (tapPass_eq_ok (tapInRange c f)
    (fun k => { code := .coefficientOutOfRange, idx := k, val := taps.getD k 0#64 }) taps
    (if strict then taps.length else 0) (by split <;> omega)).mpr (by
      intro k hk
      cases strict with
      | false => exact absurd hk (by simp)
      | true => exact hr rfl k hk)
  simp only [convolveIdeal, idealChecks, h1, h2, h3, except_ok_bind, except_pure]

end Sys2Proof.Machine
end

