-- ==== Sys2Proof/Laws/Invariant.lean ====
section
/-! SUPPORT. How the parts of the invariant pass from one state to the next, one lemma for each part, and that stores at
mapped entries keep the memories sound. -/

namespace Sys2Proof.Machine

/-! ### Memories -/

/-- Nothing listed is sound. -/
theorem Memory.Sound.empty (nmax lmax : Nat) : Memory.Sound nmax lmax [] where
  sorted := rfl
  placed a h := absurd rfl h
  wholeWords a h := absurd rfl h
  outNarrow a v _ _ h := by simp [Memory.readWord, Memory.read] at h

/-- A whole-word store at a mapped aligned offset keeps the memories sound, where an OUT word is narrow. -/
theorem Memory.Sound.storeWord {nmax lmax : Nat} {m : Memory} (h : Memory.Sound nmax lmax m) (g : Region) (a : Nat)
    (v : Word) (hn : nmax ≤ 4096) (hl : lmax ≤ 512) (h4 : a % 4 = 0) (hg : g.covers nmax lmax a = true)
    (hv : Region.out.base ≤ a → v.toNat < 2 ^ Config.maxDataBits) : Memory.Sound nmax lmax (m.writeWord a v) where
  sorted := Memory.wf_writeWord _ _ _ h.sorted
  placed b hb := by
    by_cases hc : b < a ∨ a + 4 ≤ b
    · rw [Memory.read_writeWord_outside _ _ _ _ hc] at hb; exact h.placed b hb
    · have := covers_word nmax lmax a (b - a) g hg h4 (by omega)
      rw [show a + (b - a) = b by omega, ← regionAt_eq_some _ _ _ _ hn hl] at this
      simp [this]
  wholeWords b hb := by
    by_cases hc : b < a ∨ a + 4 ≤ b
    · rw [Memory.read_writeWord_outside _ _ _ _ hc] at hb
      rw [Memory.readWord_writeWord_outside _ _ _ _ (by omega)]
      exact h.wholeWords b hb
    · rw [show b / 4 * 4 = a by omega, Memory.readWord_writeWord_same]; simp
  outNarrow b w hb hb4 hw := by
    by_cases hc : b = a
    · subst hc
      rw [Memory.readWord_writeWord_same] at hw
      obtain rfl : v = w := by simpa using hw
      exact hv hb
    · rw [Memory.readWord_writeWord_outside _ _ _ _ (by omega)] at hw
      exact h.outNarrow b w hb hb4 hw

/-- So does a run of 32-bit entries within the memory's depth. -/
theorem Memory.Sound.storeEntries {nmax lmax : Nat} (g : Region) (hg : g.entryBytes = 4) (hn : nmax ≤ 4096)
    (hl : lmax ≤ 512) (ws : List Word) (k : Nat) (m : Memory) (h : Memory.Sound nmax lmax m)
    (hw : k + ws.length ≤ g.entries nmax lmax)
    (hv : g = .out → ∀ w ∈ ws, w.toNat < 2 ^ Config.maxDataBits) : Memory.Sound nmax lmax (m.writeEntries g k ws) := by
  induction ws generalizing k m with
  | nil => exact h
  | cons w ws ih =>
    simp only [List.length_cons] at hw
    apply ih
    · apply Memory.Sound.storeWord h g _ _ hn hl
      · cases g <;> simp only [Region.addr, Region.base, Region.entryBytes] at hg ⊢ <;> omega
      · rw [covers_iff]; simp only [Region.addr, hg]; omega
      · intro hb
        apply hv _ w (by simp)
        cases g <;> simp only [Region.addr, Region.base, Region.entryBytes, Region.entries] at hg hb hw ⊢ <;> omega
    · omega
    · intro hgo x hx; exact hv hgo x (by simp [hx])

/-- The words CONVOLVE stores have at most 16 bits (30_encoding.md R121). -/
theorem convolvedWords_narrow (s : State) (ws : List Word) (h : convolvedWords s = .ok ws) :
    ∀ w ∈ ws, w.toNat < 2 ^ Config.maxDataBits := by
  obtain ⟨q, x, hl, -, -, -, -, rfl⟩ := (convolvedWords_eq_ok s ws).mp h
  intro w hw
  obtain ⟨n, -, rfl⟩ := List.mem_map.mp hw
  simp only [outputWord, outputOf]
  have hc := clamp_mem (rescale s.operands.fracBits (wrap s.operands.accBits
    (tapSum q x (kernelCenter s.operands.linear s.operands.tapCount) n))) _ _ (sampleMax_nonneg s.operands.dataBits)
  have := toNat_ofInt_sample _ _ hl.data.2 hc
  have h3 : (2 : Int) ^ s.operands.dataBits ≤ 2 ^ 16 := by exact_mod_cast Nat.pow_le_pow_right (by omega) hl.data.2
  simp only [sampleMax, Config.maxDataBits] at *
  norm_num at *
  omega

/-! ### The other parts -/

theorem State.nmax_congr {s t : State} (h : t.param = s.param) : t.nmax = s.nmax := by simp [State.nmax, h]

theorem State.lmax_congr {s t : State} (h : t.param = s.param) : t.lmax = s.lmax := by simp [State.lmax, h]

theorem State.LegalBuild.congr {s t : State} (hi : s.LegalBuild) (h : t.param = s.param) : t.LegalBuild := by
  have hn := State.nmax_congr h
  have hl := State.lmax_congr h
  exact ⟨hn ▸ hi.nmaxPos, hn ▸ hi.nmaxLe, hl ▸ hi.lmaxPos, hl ▸ hi.lmaxLe⟩

theorem State.FlagsAgree.congr {s t : State} (hi : s.FlagsAgree) (hb : t.isBusy = true → t.done = false)
    (hd : t.done = s.done ∨ t.done = true) (h1 : t.err = s.err) (h2 : t.errCode = s.errCode) (h3 : t.errIdx = s.errIdx)
    (h4 : t.errVal = s.errVal) : t.FlagsAgree where
  busyNotDone := hb
  errDone h := by
    rcases hd with hd | hd
    · rw [hd]; exact hi.errDone (h1 ▸ h)
    · exact hd
  errCoded h := h2 ▸ hi.errCoded (h1 ▸ h)
  noErrNoCode h := h2 ▸ hi.noErrNoCode (h1 ▸ h)
  noErrIdx h := h3 ▸ hi.noErrIdx (h1 ▸ h)
  noErrVal h := h4 ▸ hi.noErrVal (h1 ▸ h)
  notReserved := h2 ▸ hi.notReserved

theorem State.snapshotAgrees_of_idle {s : State} (h : s.engine = .idle) : s.SnapshotAgrees := by
  constructor <;> simp [h]

theorem State.ReservedZero.congr {s t : State} (hi : s.ReservedZero) (h1 : t.cfg1 = s.cfg1) (h2 : t.nlen = s.nlen)
    (h3 : t.llen = s.llen) : t.ReservedZero := ⟨h1 ▸ hi.cfg1, h2 ▸ hi.nlen, h3 ▸ hi.llen⟩

/-- A step that leaves the build, the memories and OUTLEN alone keeps the invariant when it keeps the other parts. -/
theorem State.Inv.congr {s t : State} (hi : s.Inv) (hp : t.param = s.param) (hm : t.mem = s.mem) (ho : t.outlen = s.outlen)
    (hf : t.FlagsAgree) (hs : t.SnapshotAgrees) (hr : t.ReservedZero) : t.Inv where
  build := hi.build.congr hp
  memory := by rw [hm, State.nmax_congr hp, State.lmax_congr hp]; exact hi.memory
  flags := hf
  snapshot := hs
  reserved := hr
  outlenLe := by rw [ho, State.nmax_congr hp, State.lmax_congr hp]; exact hi.outlenLe

/-- Under the invariant a BUSY state holds no error. -/
theorem State.Inv.busy_no_error {s : State} (hi : s.Inv) (h : s.isBusy = true) : s.done = false ∧ s.err = false := by
  have hd := hi.flags.busyNotDone h
  refine ⟨hd, ?_⟩
  by_contra hc
  have := hi.flags.errDone (by simpa using hc)
  simp [this] at hd

end Sys2Proof.Machine
end

