-- ==== Sys2Proof/Laws/PerInstr.lean ====
section
/-! SUPPORT. Statements about every command, one lemma for each constructor. -/

namespace Sys2Proof.Laws.OperandFree

/-- A command word has no operand fields: every command is well-formed, and RSV of its word is 0, so that R112's first
condition never applies to it (30_encoding.md R110, R112). -/
def Statement (i : Instr) : Prop := i.wellFormed = true ∧ rsvField (encode i) = 0#24 ∧ opField (encode i) = opCode i

theorem quantize : Statement .quantize := by unfold Statement; decide

theorem normalize : Statement .normalize := by unfold Statement; decide

theorem convolve : Statement .convolve := by unfold Statement; decide

end Sys2Proof.Laws.OperandFree
end

