-- ==== Sys2Proof/Laws/Steps.lean ====
section
/-! SUPPORT. The engine's turn and runs of steps: what an engine's turn can answer, and one step of a run. -/

namespace Sys2Proof.Machine

/-- A run of a machine whose first step goes on is a run from the state it leaves. -/
theorem run_next (M : Host.Core) (n : Nat) (s t : M.State) (h : M.step s = .next t) : M.run (n + 1) s = M.run n t := by
  rw [Host.Core.run, h]

theorem core_run_next (n : Nat) (s t : State) (h : step s = .next t) :
    Sys2Proof.core.run (n + 1) s = Sys2Proof.core.run n t := run_next Sys2Proof.core n s t h

/-- An engine's turn faults only where the accepted command consumes an entry never written (10_state.md R56). -/
theorem engineTurn_eq_fault (s : State) (f : Fault) (h : engineTurn s = .fault f) : ∃ o, s.engine = .busy o ∧
    ((decode o.word = .ok .quantize ∧
      ∃ k < o.tapCount, f = .neverWritten .rawTap k ∧ s.mem.readDWord (0x01000 + 8 * k) = none) ∨
     (decode o.word = .ok .normalize ∧
      ∃ k < o.sampleCount, f = .neverWritten .rawSample k ∧ s.mem.readDWord (0x08000 + 8 * k) = none) ∨
     (decode o.word = .ok .convolve ∧
      ((∃ k < o.tapCount, f = .neverWritten .coef k ∧ s.mem.readWord (0x02000 + 4 * k) = none) ∨
       ∃ k < o.sampleCount, f = .neverWritten .sample k ∧ s.mem.readWord (0x10000 + 4 * k) = none))) := by
  unfold engineTurn runWord at h
  split at h
  · simp at h
  · next o ho =>
    have hs : s.operands = o := by simp only [State.operands, ho]
    split at h
    · next i hi =>
      have := exec_eq_fault i s f h
      rw [hs] at this
      refine ⟨o, ho, ?_⟩
      rcases this with ⟨rfl, hk⟩ | ⟨rfl, hk⟩ | ⟨rfl, hk⟩
      · exact .inl ⟨hi, hk⟩
      · exact .inr (.inl ⟨hi, hk⟩)
      · exact .inr (.inr ⟨hi, hk⟩)
    · simp at h

/-- An engine's turn is never refused. -/
theorem engineTurn_ne_refused (s : State) (r : Refusal) : engineTurn s ≠ .refused r := by
  unfold engineTurn runWord
  split
  · simp
  · split
    · exact exec_ne_refused _ _ _
    · simp

/-- While BUSY an engine's turn runs the accepted word (30_encoding.md R111). -/
theorem engineTurn_busy (s : State) (o : Snapshot) (h : s.engine = .busy o) : engineTurn s = runWord o.word s := by
  simp only [engineTurn, h]

end Sys2Proof.Machine
end

