-- ==== Sys2Proof/Tests/Slice0.lean ====
section
/-! SUPPORT. The model's own tests: ill-formed terms refused, words of the spec's encoding decoded, one or two vectors of
spec/95_test_vectors.md for each command, and for every obligation with hypotheses a concrete case that meets them. -/

open Sys2Proof Sys2Proof.Machine

namespace Sys2Proof.Tests

/-! ### Helpers: small states -/

/-- A snapshot by its word and registers. -/
def snap (w cfg0 cfg1 nlen llen : Word) : Snapshot := ⟨w, cfg0, cfg1, nlen, llen, 0⟩

/-- Words stored in an empty memory, last one first. -/
def store : List (Nat × Word) → Memory
  | [] => []
  | (a, v) :: vs => (store vs).writeWord a v

/-- A BUSY state of the default build with this snapshot and memory. -/
def busy (o : Snapshot) (m : Memory) : State :=
  { State.reset with engine := .busy o, cfg0 := o.cfg0, cfg1 := o.cfg1, nlen := o.nlen, llen := o.llen, mem := m }

/-- The next state of an outcome. -/
def after : Host.Outcome State Fault Refusal → State
  | .next t => t
  | .fault _ => State.reset
  | .refused _ => State.reset

/-- The outcome is a next state. -/
def goesOn : Host.Outcome State Fault Refusal → Bool
  | .next _ => true
  | .fault _ => false
  | .refused _ => false

theorem eq_next_after (x : Host.Outcome State Fault Refusal) (h : goesOn x = true) : x = .next (after x) := by
  cases x <;> simp_all [goesOn, after]

/-- The error registers of an outcome's next state. -/
def errorOf (x : Host.Outcome State Fault Refusal) : Bool × ErrorCode × Word × DWord :=
  ((after x).err, (after x).errCode, (after x).errIdx, (after x).errVal)

/-- QUANTIZE at the defaults, L = 1, on the tap 0.5. -/
def tapState : State :=
  busy (snap 1#32 0x10200C08#32 2#32 0#32 1#32) (store [(0x01000, 0#32), (0x01004, 0x3FE00000#32)])

/-- NORMALIZE at the defaults, N = 1, on the sample 0.5. -/
def sampleState : State :=
  busy (snap 2#32 0x10200C08#32 2#32 1#32 0#32) (store [(0x08000, 0#32), (0x08004, 0x3FE00000#32)])

/-- CONVOLVE at the defaults, N = 2 samples 255 and 0, L = 1 coefficient 4096. -/
def convolveState : State :=
  busy (snap 3#32 0x10200C08#32 2#32 2#32 1#32) (store [(0x02000, 4096#32), (0x10000, 255#32), (0x10004, 0#32)])

/-! ### WellFormed: every check refuses its ill-formed term -/

theorem test_wellFormed_command : Instr.wellFormed .convolve = true := by decide

theorem test_wellFormed_read : (readWordAt 0x00C#17).wellFormed = true := by decide

theorem test_illFormed_misaligned_read : (Transaction.read 0x00D#17 32).wellFormed = false := by decide

theorem test_illFormed_narrow_read : (Transaction.read 0x00C#17 16).wellFormed = false := by decide

theorem test_illFormed_wide_read : (Transaction.read 0x00C#17 64).wellFormed = false := by decide

theorem test_illFormed_misaligned_write : (Transaction.write 0x012#17 32 0xF#4 0#32).wellFormed = false := by decide

theorem test_illFormed_narrow_write : (Transaction.write 0x010#17 8 0xF#4 0#32).wellFormed = false := by decide

theorem test_illFormed_wide_write : (Transaction.write 0x010#17 64 0xF#4 0#32).wellFormed = false := by decide

theorem test_illFormed_partial_write : (Transaction.write 0x010#17 32 0x7#4 0#32).wellFormed = false := by decide

/-! ### Decoding (30_encoding.md R110, R113: RSV [31:8] = 0 above OP [7:0]) -/

theorem test_decode_quantize : decode 0b00000000000000000000000000000001#32 = .ok .quantize := by decide

theorem test_decode_normalize : decode 0b00000000000000000000000000000010#32 = .ok .normalize := by decide

theorem test_decode_convolve : decode 0b00000000000000000000000000000011#32 = .ok .convolve := by decide

theorem test_decode_reserved_bit_8 : decode 0b00000000000000000000000100000011#32 = .error .reservedBits := by decide

theorem test_decodeTableWord_convolve : decodeTableWord 32 0x00000003 = some .convolve := by decide

theorem test_fetched_word_runs_first : (after (step (State.reset.withFetchWord 32 0x00000002))).done = true := by decide

/-! ### One step of each command (spec/95_test_vectors.md) -/

/-- Vector Q1: taps 0.25, 0.5, 0.25 give 0x400, 0x800, 0x400. -/
theorem test_quantize_Q1 :
    let m := (after (exec .quantize (busy (snap 1#32 0x10200C08#32 2#32 0#32 3#32)
      (store [(0x01000, 0#32), (0x01004, 0x3FD00000#32), (0x01008, 0#32), (0x0100C, 0x3FE00000#32),
        (0x01010, 0#32), (0x01014, 0x3FD00000#32)])))).mem
    m.readWord 0x02000 = some 0x400#32 ∧ m.readWord 0x02004 = some 0x800#32 ∧ m.readWord 0x02008 = some 0x400#32 := by
  decide +kernel

/-- Vector Q11: the NaN at k = 1 is reported, not the out-of-range 100.0 at k = 0. -/
theorem test_quantize_Q11 : errorOf (exec .quantize (busy (snap 1#32 0x10200C08#32 2#32 0#32 2#32)
    (store [(0x01000, 0#32), (0x01004, 0x40590000#32), (0x01008, 0#32), (0x0100C, 0x7FF80000#32)]))) =
    (true, .nonFiniteCoefficient, 1#32, 0x7FF8000000000000#64) := by
  decide +kernel

/-- From vector N2: -0.5, 0.49999999999999994 and 255.5 give 0, 0 and 255. -/
theorem test_normalize_N2 :
    let m := (after (exec .normalize (busy (snap 2#32 0x10200C08#32 2#32 3#32 0#32)
      (store [(0x08000, 0#32), (0x08004, 0xBFE00000#32), (0x08008, 0xFFFFFFFF#32), (0x0800C, 0x3FDFFFFF#32),
        (0x08010, 0#32), (0x08014, 0x406FF000#32)])))).mem
    m.readWord 0x10000 = some 0#32 ∧ m.readWord 0x10004 = some 0#32 ∧ m.readWord 0x10008 = some 255#32 := by
  decide +kernel

/-- From vector N7: as integers, -5 gives 0 and 2^62 gives 255. -/
theorem test_normalize_N7 :
    let m := (after (exec .normalize (busy (snap 2#32 0x10200C08#32 0x12#32 2#32 0#32)
      (store [(0x08000, 0xFFFFFFFB#32), (0x08004, 0xFFFFFFFF#32), (0x08008, 0#32), (0x0800C, 0x40000000#32)])))).mem
    m.readWord 0x10000 = some 0#32 ∧ m.readWord 0x10004 = some 255#32 := by
  decide +kernel

/-- Vector V5: linear mode, q = [4096, 0, 0], x = [1, 2, 3] give [1, 2, 3, 0, 0] and OUTLEN 5 (first, third and last). -/
theorem test_convolve_V5 :
    let t := after (exec .convolve (busy (snap 3#32 0x10200C08#32 3#32 3#32 3#32)
      (store [(0x02000, 4096#32), (0x02004, 0#32), (0x02008, 0#32), (0x10000, 1#32), (0x10004, 2#32), (0x10008, 3#32)])))
    t.outlen = 5#32 ∧ t.mem.readWord 0x18000 = some 1#32 ∧ t.mem.readWord 0x18008 = some 3#32 ∧
      t.mem.readWord 0x18010 = some 0#32 := by
  decide

/-- Vector V17: A = 16 wraps 8355585 to 32513, which rescales to 8. -/
theorem test_convolve_V17 :
    (after (exec .convolve (busy (snap 3#32 0x10100C08#32 2#32 1#32 1#32)
      (store [(0x02000, 32767#32), (0x10000, 255#32)])))).mem.readWord 0x18000 = some 8#32 := by
  decide

/-- SETCFG 8, 12, 32, 16 and SETMODE with mode and the rest 0 and strict 1: the reset value of CFG0, and 2 (R290, R116);
POLL goes on while its read gives BUSY. -/
theorem test_hostScript : setCfg 8#8 12#8 32#8 16#8 = [writeWordAt 0x010#17 0x10200C08#32] ∧
    setMode false true 0#2 false = [writeWordAt 0x014#17 2#32] ∧
    pollAgain (.data (regValue tapState .status)) = true ∧ pollAgain (.data (regValue State.reset .status)) = false := by
  decide

/-- R232: h = [0.25, 0.5, 0.25] on x = [10, 20, 30, 40] gives [10, 20, 30, 27.5]. -/
theorem test_ideal_R232 : convolveIdeal false true 16 12
    [0x3FD0000000000000#64, 0x3FE0000000000000#64, 0x3FD0000000000000#64] [10, 20, 30, 40] =
    .ok [10, 20, 30, 55 / 2] := by
  decide +kernel

/-- R231: no tap is EmptyFilter, and with N = 0 and L = 2 the linear variant has the one output n = 0 of [0, N + L - 1). -/
theorem test_ideal_R231 :
    convolveIdeal false true 16 12 [] [1] = .error (.raise { code := .emptyFilter, idx := 0, val := 0#64 }) ∧
    convolveIdeal true true 16 12 [0x3FD0000000000000#64, 0x3FE0000000000000#64] [] = .ok [0] := by
  decide +kernel

/-! ### Witnesses: a concrete case for the hypotheses of each obligation -/

theorem witness_StepRunsTheAcceptedCommand : ∃ (s u : State) (o : Snapshot),
    s.engine = .busy o ∧ decode o.word = .ok .quantize ∧ s.pending = .engine :: [.reset] ∧
    u.engine = .busy o ∧ u.pending = [] :=
  ⟨{ tapState with pending := [.engine, .reset] }, tapState, _, rfl, by decide, rfl, rfl, rfl⟩

theorem witness_IdleBlockWaits : State.reset.engine = .idle ∧ State.reset.pending = [] := by decide

/-- A word of each of R112's two kinds, one at a scheduled engine's turn and one with no input left. -/
theorem witness_IllegalWord : ∃ (s u : State) (o p : Snapshot),
    s.engine = .busy o ∧ s.pending = .engine :: [] ∧ o.word.extractLsb' 8 24 ≠ 0#24 ∧
    u.engine = .busy p ∧ u.pending = [] ∧
    (p.word.extractLsb' 0 8 ≠ 0x01#8 ∧ p.word.extractLsb' 0 8 ≠ 0x02#8 ∧ p.word.extractLsb' 0 8 ≠ 0x03#8) :=
  ⟨{ busy (snap 0x00000101#32 0#32 0#32 0#32 0#32) [] with pending := [.engine] },
    busy (snap 0#32 0#32 0#32 0#32 0#32) [], _, _, rfl, rfl, by decide, rfl, rfl, by decide⟩

theorem witness_CommandWriteIsAccepted : ∃ s : State,
    s.engine = .idle ∧ s.pending = .bus (writeWordAt 0x008#17 3#32) :: [.engine] :=
  ⟨{ State.reset with pending := [.bus (writeWordAt 0x008#17 3#32), .engine] }, rfl, rfl⟩

/-- A command that completes at once, and one that does after two more cycles. -/
theorem witness_AcceptedCommandCompletes : ∃ (s u : State) (o : Snapshot),
    s.engine = .busy o ∧ s.pending = List.replicate 0 .cycle ∧ u.engine = .busy o ∧ u.pending = List.replicate 2 .cycle :=
  ⟨tapState, { tapState with pending := [.cycle, .cycle] }, _, rfl, rfl, rfl, rfl⟩

theorem witness_InputsWhileBusy : ∃ (s u : State) (o : Snapshot) (es : List Event), s.engine = .busy o ∧
    (∀ e ∈ es, e = .cycle ∨ ∃ t, e = .bus t) ∧ runEvents es s = .next u :=
  ⟨convolveState, after (runEvents [.cycle, .bus (writeWordAt 0x02000#17 5#32), .bus (readWordAt 0x02000#17)] convolveState),
    _, [.cycle, .bus (writeWordAt 0x02000#17 5#32), .bus (readWordAt 0x02000#17)], rfl, by simp,
    eq_next_after _ (by decide)⟩

/-- Both ends of the reserved rest of the register block. -/
theorem witness_RegisterOffsets : placeAt 4096 256 0x030 = none ∧ placeAt 4096 256 0x0FFF = none ∧
    placeAt 4096 256 0x02C = some (.reg .errValHi) := by decide

/-- The first and the last entry of each memory in the largest build, and the offsets just past them. -/
theorem witness_MemoryEntryOffsets :
    placeAt 4096 512 0x01000 = some (.mem .rawTap) ∧ placeAt 4096 512 0x01FFC = some (.mem .rawTap) ∧
    placeAt 4096 512 0x02000 = some (.mem .coef) ∧ placeAt 4096 512 0x027FC = some (.mem .coef) ∧
    placeAt 4096 512 0x02800 = none ∧
    placeAt 4096 512 0x08000 = some (.mem .rawSample) ∧ placeAt 4096 512 0x0FFFC = some (.mem .rawSample) ∧
    placeAt 4096 512 0x10000 = some (.mem .sample) ∧ placeAt 4096 512 0x13FFC = some (.mem .sample) ∧
    placeAt 4096 512 0x14000 = none ∧
    placeAt 4096 512 0x18000 = some (.mem .out) ∧ placeAt 4096 512 0x1C7F8 = some (.mem .out) ∧
    placeAt 4096 512 0x1C7FC = none ∧
    placeAt 1 1 0x01004 = some (.mem .rawTap) ∧ placeAt 1 1 0x01008 = none ∧ placeAt 1 1 0x18004 = none := by decide

/-- Each of R86's conditions on its own. -/
theorem witness_BusErrors : ¬goesOn (transact (.read 0x00E#17 32) State.reset) ∧
    ¬goesOn (transact (.read 0x00C#17 31) State.reset) ∧ ¬goesOn (transact (.read 0x00C#17 33) State.reset) ∧
    ¬goesOn (transact (.read 0x030#17 32) State.reset) ∧ ¬goesOn (transact (.write 0x010#17 32 0xE#4 0#32) State.reset) ∧
    goesOn (transact (.read 0x02C#17 32) State.reset) := by decide

/-- The four cases of a read: a bus error, a register, a written word, an unspecified word (BUSY, or never written). -/
theorem witness_ReadWordAnswers :
    ((0x00D#17 : BitVec 17).toNat % 4 ≠ 0 ∧ placeAt State.reset.nmax State.reset.lmax 0x030 = none) ∧
    (placeAt State.reset.nmax State.reset.lmax 0x00C = some (.reg .status) ∧ State.reset.errCode ≠ .shapeMismatch) ∧
    (placeAt State.reset.nmax State.reset.lmax 0x02000 = some (.mem .coef) ∧
      ({ convolveState with engine := .idle } : State).engine = .idle ∧
      ({ convolveState with engine := .idle } : State).mem.readWord 0x02000 = some 4096#32) ∧
    (convolveState.engine ≠ .idle ∧ State.reset.mem.readWord 0x02000 = none) := by decide

/-- An offset for each case of a write in the default build, and an IDLE and a BUSY state. -/
theorem witness_WriteWordEffects :
    (State.reset.engine = .idle ∧ convolveState.engine ≠ .idle) ∧
    placeAt State.reset.nmax State.reset.lmax 0x000 = some (.reg .id) ∧
    placeAt State.reset.nmax State.reset.lmax 0x02C = some (.reg .errValHi) ∧
    placeAt State.reset.nmax State.reset.lmax 0x18000 = some (.mem .out) ∧
    placeAt State.reset.nmax State.reset.lmax 0x008 = some (.reg .cmd) ∧
    placeAt State.reset.nmax State.reset.lmax 0x010 = some (.reg .cfg0) ∧
    placeAt State.reset.nmax State.reset.lmax 0x014 = some (.reg .cfg1) ∧
    placeAt State.reset.nmax State.reset.lmax 0x018 = some (.reg .nlen) ∧
    placeAt State.reset.nmax State.reset.lmax 0x01C = some (.reg .llen) ∧
    placeAt State.reset.nmax State.reset.lmax 0x017FC = some (.mem .rawTap) ∧
    placeAt State.reset.nmax State.reset.lmax 0x01800 = none := by decide

theorem witness_WritesWhileBusyAreDropped : ∃ (s : State) (o : Snapshot), s.engine = .busy o ∧
    s.pending = .bus (.write 0x008#17 32 0xF#4 1#32) :: [] :=
  ⟨{ tapState with pending := [.bus (.write 0x008#17 32 0xF#4 1#32)] }, _, rfl, rfl⟩

/-- The last byte of a word (WordsAndHalvesAreLittleEndian), and the first addresses outside the window
(WindowOfThePlatform). -/
theorem witness_BytesAndWindow : (3 < 4 ∧ (Memory.writeWord [] 0x02000 0xAABBCCDD#32).read 0x02003 = some 0xAA#8) ∧
    ∃ a, Config.firBase + 131072 ≤ a := ⟨by decide, Config.firBase + 131072, le_refl _⟩

theorem witness_ResetWhileBusy : ∃ (s : State) (o : Snapshot), s.engine = .busy o ∧ s.pending = .reset :: [.cycle] :=
  ⟨{ convolveState with pending := [.reset, .cycle] }, _, rfl, rfl⟩

/-- A BUSY block, and an IDLE one with an error recorded and its registers away from their reset values. -/
theorem witness_ResetFromAnyState : ∃ s u : State, s.engine ≠ .idle ∧ s.pending = .reset :: [] ∧ u.engine = .idle ∧
    u.pending = .reset :: [] ∧ u.err = true ∧ u.cfg0 ≠ State.reset.cfg0 ∧ u.nlen ≠ 0#32 :=
  ⟨{ convolveState with pending := [.reset] },
    { State.reset with pending := [.reset], done := true, err := true, errCode := .emptyFilter, cfg0 := 0#32, nlen := 5#32 },
    by decide, rfl, rfl, rfl, rfl, by decide, by decide⟩

/-! ### Witnesses: the commands' results -/

theorem tapState_legal : tapState.QuantizeLegal := ⟨by decide, by decide, by decide, by decide⟩

theorem sampleState_legal : sampleState.NormalizeLegal := ⟨by decide, by decide⟩

theorem convolveState_legal : convolveState.ConvolveLegal :=
  ⟨by decide, by decide, by decide, by decide, by decide, by decide⟩

theorem convolveState_coefs : ∀ k < convolveState.operands.tapCount, convolveState.coefIs k 4096#32 ∧
    -2 ^ (convolveState.operands.coeffBits - 1) ≤ (4096#32 : Word).toInt ∧
    (4096#32 : Word).toInt ≤ 2 ^ (convolveState.operands.coeffBits - 1) - 1 := by
  intro k hk
  obtain rfl : k = 0 := by have : convolveState.operands.tapCount = 1 := by decide
                           omega
  exact ⟨rfl, by decide, by decide⟩

/-- The samples of `convolveState`. -/
def convolveSample (i : Nat) : Word := if i = 0 then 255#32 else 0#32

theorem convolveState_samples : ∀ i < convolveState.operands.sampleCount, convolveState.sampleIs i (convolveSample i) ∧
    (convolveSample i).toNat ≤ 2 ^ convolveState.operands.dataBits - 1 := by
  intro i hi
  have : i = 0 ∨ i = 1 := by have : convolveState.operands.sampleCount = 2 := by decide
                             omega
  rcases this with rfl | rfl <;> exact ⟨rfl, by decide⟩

/-- A tap that meets every hypothesis of the QUANTIZE result, in strict mode. -/
theorem witness_QuantizeStores : tapState.QuantizeLegal ∧ ∀ k < tapState.operands.tapCount, ∃ b, tapState.rawTapIs k b ∧
    finite64 b = true ∧
    (tapState.operands.strict = true → TapAccepted tapState.operands.coeffBits tapState.operands.fracBits b) := by
  refine ⟨tapState_legal, fun k hk => ⟨0x3FE0000000000000#64, ?_, by decide, fun _ => ?_⟩⟩
  · obtain rfl : k = 0 := by have : tapState.operands.tapCount = 1 := by decide
                             omega
    rfl
  · exact (tapInRange_iff _ _ _).mp (by decide +kernel)

theorem witness_NormalizeStores : sampleState.NormalizeLegal ∧ ∀ i < sampleState.operands.sampleCount,
    ∃ b, sampleState.rawSampleIs i b ∧ (sampleState.operands.intSamples = false → finite64 b = true) := by
  refine ⟨sampleState_legal, fun k hk => ⟨0x3FE0000000000000#64, ?_, fun _ => by decide⟩⟩
  obtain rfl : k = 0 := by have : sampleState.operands.sampleCount = 1 := by decide
                           omega
  rfl

theorem witness_ConvolveStores : ∃ q x : Nat → Word, convolveState.ConvolveLegal ∧
    (∀ k < convolveState.operands.tapCount, convolveState.coefIs k (q k) ∧
      -2 ^ (convolveState.operands.coeffBits - 1) ≤ (q k).toInt ∧
      (q k).toInt ≤ 2 ^ (convolveState.operands.coeffBits - 1) - 1) ∧
    ∀ i < convolveState.operands.sampleCount, convolveState.sampleIs i (x i) ∧
      (x i).toNat ≤ 2 ^ convolveState.operands.dataBits - 1 :=
  ⟨fun _ => 4096#32, convolveSample, convolveState_legal, convolveState_coefs, convolveState_samples⟩

/-- Legal fields with CFG1.MODE = 1: the linear clause's hypothesis. -/
theorem witness_ConvolveStores_linear : (busy (snap 3#32 0x10200C08#32 3#32 2#32 1#32) []).operands.linear = true := by
  decide

/-- Each configuration error of QUANTIZE at a boundary: F = 0 and 64; C = 12; QROUND = 3; L = 0; L = LMAX + 1. -/
theorem witness_QuantizeConfigurationErrors :
    (let o := (busy (snap 1#32 0x10200008#32 2#32 0#32 1#32) []).operands;
      ¬(1 ≤ o.fracBits ∧ o.fracBits ≤ 63)) ∧
    (let o := (busy (snap 1#32 0x10204008#32 2#32 0#32 1#32) []).operands;
      ¬(1 ≤ o.fracBits ∧ o.fracBits ≤ 63)) ∧
    (let o := (busy (snap 1#32 0x0C203F08#32 2#32 0#32 1#32) []).operands;
      (1 ≤ o.fracBits ∧ o.fracBits ≤ 63) ∧ ¬(o.coeffBits = 8 ∨ o.coeffBits = 16 ∨ o.coeffBits = 32)) ∧
    (let o := (busy (snap 1#32 0x20200108#32 0x0E#32 0#32 0#32) []).operands;
      (1 ≤ o.fracBits ∧ o.fracBits ≤ 63) ∧ (o.coeffBits = 8 ∨ o.coeffBits = 16 ∨ o.coeffBits = 32) ∧ o.qround = 3) ∧
    (let o := (busy (snap 1#32 0x08200C08#32 0x0A#32 0#32 0#32) []).operands;
      (1 ≤ o.fracBits ∧ o.fracBits ≤ 63) ∧ (o.coeffBits = 8 ∨ o.coeffBits = 16 ∨ o.coeffBits = 32) ∧ o.qround ≠ 3 ∧ o.tapCount = 0) ∧
    (let o := (busy (snap 1#32 0x10200C08#32 2#32 0#32 257#32) []).operands;
      (1 ≤ o.fracBits ∧ o.fracBits ≤ 63) ∧ (o.coeffBits = 8 ∨ o.coeffBits = 16 ∨ o.coeffBits = 32) ∧ o.qround ≠ 3 ∧ o.tapCount ≠ 0 ∧ State.reset.lmax < o.tapCount) := by
  decide

/-- Each configuration error of NORMALIZE at a boundary: D = 0 and 17; N = NMAX + 1. -/
theorem witness_NormalizeConfigurationErrors :
    (let o := (busy (snap 2#32 0x10200C00#32 2#32 1#32 0#32) []).operands;
      ¬(1 ≤ o.dataBits ∧ o.dataBits ≤ 16)) ∧
    (let o := (busy (snap 2#32 0x10200C11#32 2#32 1#32 0#32) []).operands;
      ¬(1 ≤ o.dataBits ∧ o.dataBits ≤ 16)) ∧
    (let o := (busy (snap 2#32 0x10200C10#32 2#32 4097#32 0#32) []).operands;
      (1 ≤ o.dataBits ∧ o.dataBits ≤ 16) ∧ State.reset.nmax < o.sampleCount) := by
  decide

/-- Each configuration error of CONVOLVE at a boundary: D = 17; F = 0; A = 0 and 65; C = 24; L = 0; N = NMAX + 1;
L = LMAX + 1. -/
theorem witness_ConvolveConfigurationErrors :
    (let o := (busy (snap 3#32 0x10200C11#32 2#32 1#32 1#32) []).operands;
      ¬(1 ≤ o.dataBits ∧ o.dataBits ≤ 16)) ∧
    (let o := (busy (snap 3#32 0x10200010#32 2#32 1#32 1#32) []).operands;
      (1 ≤ o.dataBits ∧ o.dataBits ≤ 16) ∧ ¬(1 ≤ o.fracBits ∧ o.fracBits ≤ 63)) ∧
    (let o := (busy (snap 3#32 0x10003F01#32 2#32 1#32 1#32) []).operands;
      (1 ≤ o.dataBits ∧ o.dataBits ≤ 16) ∧ (1 ≤ o.fracBits ∧ o.fracBits ≤ 63) ∧ ¬(1 ≤ o.accBits ∧ o.accBits ≤ 64)) ∧
    (let o := (busy (snap 3#32 0x10410C08#32 2#32 1#32 1#32) []).operands;
      (1 ≤ o.dataBits ∧ o.dataBits ≤ 16) ∧ (1 ≤ o.fracBits ∧ o.fracBits ≤ 63) ∧ ¬(1 ≤ o.accBits ∧ o.accBits ≤ 64)) ∧
    (let o := (busy (snap 3#32 0x18400108#32 2#32 1#32 1#32) []).operands;
      (1 ≤ o.dataBits ∧ o.dataBits ≤ 16) ∧ (1 ≤ o.fracBits ∧ o.fracBits ≤ 63) ∧ (1 ≤ o.accBits ∧ o.accBits ≤ 64) ∧ ¬(o.coeffBits = 8 ∨ o.coeffBits = 16 ∨ o.coeffBits = 32)) ∧
    (let o := (busy (snap 3#32 0x20010C08#32 2#32 1#32 0#32) []).operands;
      (1 ≤ o.dataBits ∧ o.dataBits ≤ 16) ∧ (1 ≤ o.fracBits ∧ o.fracBits ≤ 63) ∧ (1 ≤ o.accBits ∧ o.accBits ≤ 64) ∧ (o.coeffBits = 8 ∨ o.coeffBits = 16 ∨ o.coeffBits = 32) ∧ o.tapCount = 0) ∧
    (let o := (busy (snap 3#32 0x10200C08#32 2#32 4097#32 1#32) []).operands;
      (1 ≤ o.dataBits ∧ o.dataBits ≤ 16) ∧ (1 ≤ o.fracBits ∧ o.fracBits ≤ 63) ∧ (1 ≤ o.accBits ∧ o.accBits ≤ 64) ∧ (o.coeffBits = 8 ∨ o.coeffBits = 16 ∨ o.coeffBits = 32) ∧ o.tapCount ≠ 0 ∧ State.reset.nmax < o.sampleCount) ∧
    (let o := (busy (snap 3#32 0x10200C08#32 2#32 4096#32 257#32) []).operands;
      (1 ≤ o.dataBits ∧ o.dataBits ≤ 16) ∧ (1 ≤ o.fracBits ∧ o.fracBits ≤ 63) ∧ (1 ≤ o.accBits ∧ o.accBits ≤ 64) ∧ (o.coeffBits = 8 ∨ o.coeffBits = 16 ∨ o.coeffBits = 32) ∧ o.tapCount ≠ 0 ∧ o.sampleCount ≤ State.reset.nmax ∧
        State.reset.lmax < o.tapCount) := by
  decide

/-! ### Witnesses: errors found in entries, and entries never written -/

/-- +infinity at k = 0, in non-strict mode (vector Q12). -/
theorem witness_LowestNonFiniteTap : ∃ (s : State) (b : DWord), s.QuantizeLegal ∧ 0 < s.operands.tapCount ∧
    (∀ j < 0, ∃ c, s.rawTapIs j c ∧ finite64 c = true) ∧ s.rawTapIs 0 b ∧ finite64 b = false :=
  ⟨busy (snap 1#32 0x10200C08#32 0#32 0#32 1#32) (store [(0x01000, 0#32), (0x01004, 0x7FF00000#32)]),
    0x7FF0000000000000#64, ⟨by decide, by decide, by decide, by decide⟩, by decide, by simp, rfl, by decide⟩

/-- 1.0 with C = 8 and F = 7 (vector Q2). -/
theorem witness_LowestTapOutOfRange : ∃ (s : State) (b : DWord), s.QuantizeLegal ∧ s.operands.strict = true ∧
    0 < s.operands.tapCount ∧ (∀ j < s.operands.tapCount, ∃ c, s.rawTapIs j c ∧ finite64 c = true) ∧
    (∀ j < 0, ∀ c, s.rawTapIs j c → TapAccepted s.operands.coeffBits s.operands.fracBits c) ∧ s.rawTapIs 0 b ∧
    ¬TapAccepted s.operands.coeffBits s.operands.fracBits b := by
  refine ⟨busy (snap 1#32 0x08200708#32 2#32 0#32 1#32) (store [(0x01000, 0#32), (0x01004, 0x3FF00000#32)]),
    0x3FF0000000000000#64, ⟨by decide, by decide, by decide, by decide⟩, by decide, by decide, ?_, by simp, rfl, ?_⟩
  · intro j hj
    obtain rfl : j = 0 := Nat.lt_one_iff.mp hj
    exact ⟨0x3FF0000000000000#64, rfl, by decide⟩
  · rw [← tapInRange_iff]; decide +kernel

/-- A NaN sample; and integer samples whose NORMALIZE goes on. -/
theorem witness_LowestNonFiniteSample :
    (∃ (s : State) (b : DWord), s.NormalizeLegal ∧ s.operands.intSamples = false ∧ 0 < s.operands.sampleCount ∧
      (∀ j < 0, ∃ c, s.rawSampleIs j c ∧ finite64 c = true) ∧ s.rawSampleIs 0 b ∧ finite64 b = false) ∧
    ∃ s t : State, s.operands.intSamples = true ∧ s.errCode ≠ .nonFiniteSample ∧ exec .normalize s = .next t := by
  refine ⟨⟨busy (snap 2#32 0x10200C08#32 2#32 1#32 0#32) (store [(0x08000, 0#32), (0x08004, 0x7FF80000#32)]),
    0x7FF8000000000000#64, ⟨by decide, by decide⟩, by decide, by decide, by simp, rfl, by decide⟩,
    busy (snap 2#32 0x10200C08#32 0x12#32 1#32 0#32) (store [(0x08000, 0#32), (0x08004, 0x7FF80000#32)]), _, by decide,
    by decide, eq_next_after _ (by decide +kernel)⟩

/-- -32769 with C = 16 (vector V31): one below the least coefficient. -/
theorem witness_FirstBadCoefficient : ∃ (s : State) (v : Word), s.ConvolveLegal ∧ 0 < s.operands.tapCount ∧
    (∀ j < 0, ∃ w, s.coefIs j w ∧ -2 ^ (s.operands.coeffBits - 1) ≤ w.toInt ∧
      w.toInt ≤ 2 ^ (s.operands.coeffBits - 1) - 1) ∧ s.coefIs 0 v ∧
    ¬(-2 ^ (s.operands.coeffBits - 1) ≤ v.toInt ∧ v.toInt ≤ 2 ^ (s.operands.coeffBits - 1) - 1) :=
  ⟨busy (snap 3#32 0x10200C08#32 2#32 1#32 1#32) (store [(0x02000, 0xFFFF7FFF#32), (0x10000, 1#32)]), 0xFFFF7FFF#32,
    ⟨by decide, by decide, by decide, by decide, by decide, by decide⟩, by decide, by simp, rfl, by decide⟩

/-- 256 with D = 8 (vector V32): one above the greatest sample. -/
theorem witness_FirstBadSample : ∃ (s : State) (v : Word), s.ConvolveLegal ∧
    (∀ k < s.operands.tapCount, ∃ w, s.coefIs k w ∧ -2 ^ (s.operands.coeffBits - 1) ≤ w.toInt ∧
      w.toInt ≤ 2 ^ (s.operands.coeffBits - 1) - 1) ∧ 0 < s.operands.sampleCount ∧
    (∀ j < 0, ∃ w, s.sampleIs j w ∧ w.toNat ≤ 2 ^ s.operands.dataBits - 1) ∧ s.sampleIs 0 v ∧
    2 ^ s.operands.dataBits - 1 < v.toNat := by
  refine ⟨busy (snap 3#32 0x10200C08#32 2#32 1#32 1#32) (store [(0x02000, 4096#32), (0x10000, 256#32)]), 256#32,
    ⟨by decide, by decide, by decide, by decide, by decide, by decide⟩, ?_, by decide, by simp, rfl, by decide⟩
  intro k hk
  obtain rfl : k = 0 := Nat.lt_one_iff.mp hk
  exact ⟨4096#32, rfl, by decide, by decide⟩

/-- Each kind of entry with a word unwritten: the low half of a tap, the high half of a sample, a coefficient, a
sample. -/
theorem witness_ConsumingAnUnwrittenEntry :
    (∃ s : State, s.QuantizeLegal ∧ 0 < s.operands.tapCount ∧ s.mem.readWord 0x01000 = none ∧
      s.mem.readWord 0x01004 = some 0x3FE00000#32) ∧
    (∃ s : State, s.NormalizeLegal ∧ 0 < s.operands.sampleCount ∧ s.mem.readWord 0x08000 = some 0#32 ∧
      s.mem.readWord 0x08004 = none) ∧
    (∃ s : State, s.ConvolveLegal ∧ 0 < s.operands.tapCount ∧ s.mem.readWord 0x02000 = none) ∧
    ∃ s : State, s.ConvolveLegal ∧ (∀ k < s.operands.tapCount, ∃ w, s.coefIs k w ∧
      -2 ^ (s.operands.coeffBits - 1) ≤ w.toInt ∧ w.toInt ≤ 2 ^ (s.operands.coeffBits - 1) - 1) ∧
      0 < s.operands.sampleCount ∧ s.mem.readWord 0x10000 = none := by
  refine ⟨⟨{ tapState with mem := store [(0x01004, 0x3FE00000#32)] }, ⟨by decide, by decide, by decide, by decide⟩,
      by decide, by decide, by decide⟩,
    ⟨{ sampleState with mem := store [(0x08000, 0#32)] }, ⟨by decide, by decide⟩, by decide, by decide, by decide⟩,
    ⟨{ convolveState with mem := [] }, ⟨by decide, by decide, by decide, by decide, by decide, by decide⟩, by decide,
      by decide⟩,
    { convolveState with mem := store [(0x02000, 4096#32)] },
      ⟨by decide, by decide, by decide, by decide, by decide, by decide⟩, ?_, by decide, by decide⟩
  intro k hk
  obtain rfl : k = 0 := Nat.lt_one_iff.mp hk
  exact ⟨4096#32, rfl, by decide, by decide⟩

/-! ### Witnesses: frames, invariants and arithmetic -/

/-- A command that goes on without an error, and one that ends in one. -/
theorem witness_ErroredCommandIsPrecise : ∃ s t u v : State,
    exec .convolve s = .next t ∧ s.err = false ∧ t.err = false ∧
    exec .quantize u = .next v ∧ u.err = false ∧ v.err = true :=
  ⟨convolveState, _, busy (snap 1#32 0x10200C08#32 2#32 0#32 0#32) [], _, eq_next_after _ (by decide), by decide,
    by decide, eq_next_after _ (by decide), by decide, by decide⟩

theorem witness_CommandsChangeOnlyTheirDestination : ∃ s t u : State, exec .quantize tapState = .next s ∧
    exec .normalize sampleState = .next t ∧ exec .convolve convolveState = .next u :=
  ⟨_, _, _, eq_next_after _ (by decide +kernel), eq_next_after _ (by decide +kernel), eq_next_after _ (by decide)⟩

theorem convolveState_build : convolveState.LegalBuild := ⟨by decide, by decide, by decide, by decide⟩

/-- The engine's turn of a CONVOLVE writes the first byte of OUT. -/
theorem witness_OnlyConvolveWritesOut : ∃ t : State, convolveState.LegalBuild ∧ handle .engine convolveState = .next t ∧
    t.mem.read 0x18000 ≠ convolveState.mem.read 0x18000 :=
  ⟨_, convolveState_build, eq_next_after _ (by decide), by decide⟩

/-- A write of CFG0 while IDLE, and a write of CMD while BUSY. -/
theorem witness_OnlyAcceptanceChangesStatus : ∃ t u : State,
    handle (.bus (writeWordAt 0x010#17 0#32)) State.reset = .next t ∧
    (∀ v, Event.bus (writeWordAt 0x010#17 0#32) ≠ .bus (writeWordAt 0x008#17 v)) ∧
    handle (.bus (writeWordAt 0x008#17 1#32)) convolveState = .next u ∧ convolveState.engine ≠ .idle :=
  ⟨_, _, eq_next_after _ (by decide), by simp [writeWordAt], eq_next_after _ (by decide), by decide⟩

/-- A state with an accepted NORMALIZE meets the invariant, and its step goes on. -/
theorem witness_StepKeepsTheInvariant : ∃ s t : State, s.Inv ∧ s.engine ≠ .idle ∧ step s = .next t :=
  ⟨State.reset.withFetchWord 32 2, _,
    { build := ⟨by decide, by decide, by decide, by decide⟩
      memory := Memory.Sound.empty _ _
      flags := ⟨by decide, by decide, by decide, by decide, by decide, by decide, by decide⟩
      snapshot := by constructor <;> (intro o h; cases h; rfl)
      reserved := ⟨by decide, by decide, by decide⟩
      outlenLe := by decide },
    by decide, eq_next_after _ (by decide)⟩

/-- A step that faults for each cause: every kind of bus error, and an unwritten entry of each consumed memory. -/
theorem witness_FaultsHaveTheirCause :
    step { State.reset with pending := [.bus (readWordAt 0x002#17)] } = .fault (.busMisaligned 0x002#17) ∧
    step { State.reset with pending := [.bus (.read 0x000#17 31)] } = .fault (.busNarrow 0x000#17) ∧
    step { State.reset with pending := [.bus (.write 0x010#17 32 0x7#4 0#32)] } = .fault (.busPartialLanes 0x010#17) ∧
    step { State.reset with pending := [.bus (.read 0x000#17 33)] } = .fault (.busWide 0x000#17) ∧
    step { State.reset with pending := [.bus (readWordAt 0x030#17)] } = .fault (.busUnmapped 0x030#17) ∧
    step { tapState with mem := [] } = .fault (.neverWritten .rawTap 0) ∧
    step { sampleState with mem := [], pending := [.engine] } = .fault (.neverWritten .rawSample 0) ∧
    step { convolveState with mem := [] } = .fault (.neverWritten .coef 0) ∧
    step { convolveState with mem := store [(0x02000, 4096#32)] } = .fault (.neverWritten .sample 0) := by
  exact ⟨rfl, rfl, rfl, rfl, rfl, rfl, rfl, rfl, rfl⟩

/-- Two states that differ in the registers, flags and memories QUANTIZE, NORMALIZE and CONVOLVE do not use. -/
theorem witness_CommandResultsDepend :
    (∃ s u : State, s ≠ u ∧ s.lmax = u.lmax ∧ s.operands = u.operands ∧
      ∀ k < s.operands.tapCount, s.mem.readDWord (0x01000 + 8 * k) = u.mem.readDWord (0x01000 + 8 * k)) ∧
    (∃ s u : State, s ≠ u ∧ s.nmax = u.nmax ∧ s.operands = u.operands ∧
      ∀ i < s.operands.sampleCount, s.mem.readDWord (0x08000 + 8 * i) = u.mem.readDWord (0x08000 + 8 * i)) ∧
    ∃ s u : State, s ≠ u ∧ s.nmax = u.nmax ∧ s.lmax = u.lmax ∧ s.operands = u.operands ∧
      (∀ k < s.operands.tapCount, s.mem.readWord (0x02000 + 4 * k) = u.mem.readWord (0x02000 + 4 * k)) ∧
      ∀ i < s.operands.sampleCount, s.mem.readWord (0x10000 + 4 * i) = u.mem.readWord (0x10000 + 4 * i) :=
  ⟨⟨tapState, { tapState with outlen := 7#32 }, by decide, rfl, rfl, fun _ _ => rfl⟩,
    ⟨sampleState, { sampleState with done := true }, by decide, rfl, rfl, fun _ _ => rfl⟩,
    convolveState, { convolveState with acc := 1#64 }, by decide, rfl, rfl, rfl, fun _ _ => rfl, fun _ _ => rfl⟩

/-- A subnormal and the greatest finite pattern: both cases of the value. -/
theorem witness_Binary64Values :
    (((0x0000000000000001#64 : DWord).extractLsb' 52 11).toNat = 0) ∧
    (((0x7FEFFFFFFFFFFFFF#64 : DWord).extractLsb' 52 11).toNat ≠ 0 ∧
      ((0x7FEFFFFFFFFFFFFF#64 : DWord).extractLsb' 52 11).toNat ≠ 0x7FF) := by decide

/-- 0 is no tie. -/
theorem witness_RoundingModesDifferOnlyAtTies : ∀ m : ℤ, (0 : ℚ) ≠ m + 1 / 2 := by
  intro m h
  have h2 : ((2 * m + 1 : ℤ) : ℚ) = 0 := by push_cast; linarith
  have h3 : 2 * m + 1 = 0 := by exact_mod_cast h2
  omega

/-- The ends of the accepted range at C = 8, F = 7: 127/128 and -1. -/
theorem witness_AcceptedTaps : roundingOf 0 = some rndHalfAway ∧ TapAccepted 8 7 0x3FEFC00000000000#64 ∧
    TapAccepted 8 7 0xBFF0000000000000#64 :=
  ⟨rfl, (tapInRange_iff _ _ _).mp (by decide +kernel), (tapInRange_iff _ _ _).mp (by decide +kernel)⟩

/-- The least and the greatest width of the accumulator (R213, A = 1; R211). -/
theorem witness_WrapIsTwosComplement : 1 ≤ 1 ∧ wrap 1 1 = -1 ∧ wrap 64 (2 ^ 63) = -2 ^ 63 := by decide

/-- Vector V18 (A = 16): both maskings give -32641. -/
theorem witness_PerStepMasking : 1 ≤ 16 ∧ macWrappedFrom 16 [255] 0 0 0 [129] 0 = -32641 := by decide

/-- Vectors V14 and V16: the rescale of -2049 and 6144 at F = 12. -/
theorem witness_RescaleRoundsHalfUp : 1 ≤ 12 ∧ rescale 12 (-2049) = -1 ∧ rescale 12 6144 = 2 := by decide

/-- The extreme coefficients and sample, and both orders of F and A. -/
theorem witness_ArithmeticWidths :
    (∀ v ∈ [(-2 : ℤ) ^ 31, 2 ^ 31 - 1], -2 ^ 31 ≤ v ∧ v ≤ 2 ^ 31 - 1) ∧
    (∀ v ∈ [(0 : ℤ), 2 ^ 16 - 1], 0 ≤ v ∧ v ≤ 2 ^ 16 - 1) ∧ ((63 : ℕ) < 64 ∧ (8 : ℕ) ≤ 12) := by decide

/-- A centered CONVOLVE that succeeds, and one on zero samples. -/
theorem witness_StatedPropertiesOfConvolve :
    (∃ t : State, convolveState.ConvolveLegal ∧ convolveState.operands.linear = false ∧ convolveState.err = false ∧
      exec .convolve convolveState = .next t ∧ t.err = false) ∧
    ∃ s t : State, s.ConvolveLegal ∧ s.err = false ∧ (∀ i < s.operands.sampleCount, s.sampleIs i 0#32) ∧
      exec .convolve s = .next t ∧ t.err = false ∧ 0 < t.outlen.toNat := by
  refine ⟨⟨_, convolveState_legal, by decide, by decide, eq_next_after _ (by decide), by decide⟩,
    busy (snap 3#32 0x10200C08#32 2#32 1#32 1#32) (store [(0x02000, 4096#32), (0x10000, 0#32)]), _,
    ⟨by decide, by decide, by decide, by decide, by decide, by decide⟩, by decide, ?_, eq_next_after _ (by decide),
    by decide, by decide⟩
  intro i hi
  obtain rfl : i = 0 := Nat.lt_one_iff.mp hi
  rfl

/-- Each of clamp's three cases at its boundary. -/
theorem witness_clamp : (0 : ℤ) ≤ 255 ∧ clamp (-1) 0 255 = 0 ∧ clamp 0 0 255 = 0 ∧ clamp 255 0 255 = 255 ∧
    clamp 256 0 255 = 255 ∧ clamp 7 0 255 = 7 := by decide

theorem witness_UnitTapIsTheIdentity : ∃ (s : State) (x : Nat → Word) (w : Word), s.ConvolveLegal ∧
    s.operands.tapCount = 1 ∧ s.coefIs 0 w ∧ w.toInt = 2 ^ s.operands.fracBits ∧
    w.toInt ≤ 2 ^ (s.operands.coeffBits - 1) - 1 ∧ s.operands.fracBits + s.operands.dataBits < s.operands.accBits ∧
    ∀ i < s.operands.sampleCount, s.sampleIs i (x i) ∧ (x i).toNat ≤ 2 ^ s.operands.dataBits - 1 :=
  ⟨convolveState, convolveSample, 4096#32, convolveState_legal, by decide, rfl, by decide, by decide, by decide,
    convolveState_samples⟩

/-- Scenario 1 of the source at n = 3, where the ideal output is 27.5 (R232). -/
theorem witness_FixedOutputIsTheRoundedIdeal :
    3 < (idealCentered ([1024, 2048, 1024].map fun v : ℤ => (v : ℚ) / 2 ^ 12) ([10, 20, 30, 40].map fun v : ℤ => (v : ℚ))).length ∧
    -2 ^ 31 ≤ tapSum [1024, 2048, 1024] [10, 20, 30, 40] 1 3 ∧
    tapSum [1024, 2048, 1024] [10, 20, 30, 40] 1 3 ≤ 2 ^ 31 - 1 := by
  refine ⟨by simp [idealCentered], by decide, by decide⟩

theorem witness_QuantizedCoefficientsAreInRange : ∃ t : State, tapState.err = false ∧
    exec .quantize tapState = .next t ∧ t.err = false ∧ 0 < tapState.operands.tapCount :=
  ⟨_, by decide, eq_next_after _ (by decide +kernel), by decide +kernel, by decide⟩

theorem witness_WrittenSamplesAndOutputs : ∃ t u : State,
    exec .normalize sampleState = .next t ∧ sampleState.err = false ∧ t.err = false ∧
    exec .convolve convolveState = .next u ∧ convolveState.err = false ∧ u.err = false ∧ 0 < u.outlen.toNat :=
  ⟨_, _, eq_next_after _ (by decide +kernel), by decide, by decide +kernel, eq_next_after _ (by decide), by decide,
    by decide, by decide⟩

/-- The first and the last entry of both raw memories in the default build. -/
theorem witness_ScriptWr64 : State.reset.LegalBuild ∧ State.reset.engine = .idle ∧ 0 < State.reset.lmax ∧
    255 < State.reset.lmax ∧ 0 < State.reset.nmax ∧ 4095 < State.reset.nmax :=
  ⟨⟨by decide, by decide, by decide, by decide⟩, rfl, by decide⟩

theorem witness_ScriptSetsTheOperands : State.reset.engine = .idle := rfl

end Sys2Proof.Tests
end

section
/-! Family 00_scope.md: the rounding functions (R11) and the two's-complement wrap (R9, R10). -/

namespace Sys2Proof.Machine

/-! ### The rounding functions -/

theorem rndHalfAway_of_pos (v : ℚ) (h : 0 < v) : rndHalfAway v = ⌊v + 1 / 2⌋ := if_pos h

theorem rndHalfAway_of_neg (v : ℚ) (h : v < 0) : rndHalfAway v = -⌊-v + 1 / 2⌋ :=
  (if_neg (not_lt.mpr h.le)).trans (if_pos h)

@[simp] theorem rndHalfAway_zero : rndHalfAway 0 = 0 := rfl

/-- The model's three cases are the spec's one formula (00_scope.md R11). -/
theorem rndHalfAway_eq_sign_mul (v : ℚ) : rndHalfAway v = (SignType.sign v : ℤ) * ⌊|v| + 1 / 2⌋ := by
  obtain h | rfl | h := lt_trichotomy v 0
  · simp [rndHalfAway_of_neg v h, sign_neg h, abs_of_neg h]
  · simp
  · simp [rndHalfAway_of_pos v h, sign_pos h, abs_of_pos h]

/-- Off a tie, half even is strictly nearest: the integer below or above, whichever is closer. -/
theorem abs_sub_rndHalfEven_lt (v : ℚ) (h : v - ⌊v⌋ ≠ 1 / 2) : |v - rndHalfEven v| < 1 / 2 := by
  have hlo := Int.floor_le v
  have hhi := Int.lt_floor_add_one v
  obtain h | h := lt_or_gt_of_ne h
  · rw [rndHalfEven_below v h, abs_of_nonneg (by linarith)]
    exact h
  · rw [rndHalfEven_above v h, Int.cast_add, Int.cast_one, abs_of_neg (by linarith)]
    linarith

/-- At a tie both neighbours are at distance 1/2. -/
theorem abs_sub_rndHalfEven_of_tie (v : ℚ) (h : v - ⌊v⌋ = 1 / 2) : |v - rndHalfEven v| = 1 / 2 := by
  rw [rndHalfEven_tie v h]
  split
  · rw [h]; norm_num
  · rw [Int.cast_add, Int.cast_one, ← sub_sub, h]; norm_num

theorem even_rndHalfEven_of_tie (v : ℚ) (h : v - ⌊v⌋ = 1 / 2) : Even (rndHalfEven v) := by
  rw [rndHalfEven_tie v h, Int.even_iff]
  split <;> omega

theorem abs_sub_rndHalfEven_le (v : ℚ) : |v - rndHalfEven v| ≤ 1 / 2 := by
  by_cases h : v - ⌊v⌋ = 1 / 2
  · exact (abs_sub_rndHalfEven_of_tie v h).le
  · exact (abs_sub_rndHalfEven_lt v h).le

/-- A result at distance 1/2 comes from a tie, and there it is even. -/
theorem even_rndHalfEven (v : ℚ) (hd : |v - rndHalfEven v| = 1 / 2) : Even (rndHalfEven v) := by
  by_cases h : v - ⌊v⌋ = 1 / 2
  · exact even_rndHalfEven_of_tie v h
  · exact absurd hd (abs_sub_rndHalfEven_lt v h).ne

/-- Settles O45: each rounding by its own lemma, half even by whether v is a tie. -/
theorem roundingFunctions : Obligations.RoundingFunctions := fun v =>
  ⟨rndHalfAway_eq_sign_mul v, rndHalfUp_eq v, abs_sub_rndHalfEven_le v, even_rndHalfEven v⟩

/-! ### The wrap -/

theorem wrap_mem (a : ℕ) (s : ℤ) (h : 1 ≤ a) : -2 ^ (a - 1) ≤ wrap a s ∧ wrap a s ≤ 2 ^ (a - 1) - 1 := by
  have hp := two_pow_pred a h
  have hlo : 0 ≤ s % 2 ^ a := Int.emod_nonneg _ (by positivity)
  have hhi : s % 2 ^ a < 2 ^ a := Int.emod_lt_of_pos _ (by positivity)
  rw [wrap_eq a s h]
  split <;> omega

/-- The wrap takes the residue of s, or that residue less one modulus. -/
theorem wrap_modEq (a : ℕ) (s : ℤ) : wrap a s ≡ s [ZMOD 2 ^ a] := by
  unfold wrap
  split
  · exact Int.sub_modulus_modEq_iff.mpr (Int.mod_modEq s _)
  · exact Int.mod_modEq s _

/-- Settles O49, by the range of the balanced remainder and its residue. -/
theorem wrapIsTwosComplement : Obligations.WrapIsTwosComplement := fun a s h =>
  ⟨(wrap_mem a s h).1, (wrap_mem a s h).2, wrap_modEq a s⟩

end Sys2Proof.Machine
end

section
/-! Family 10_state.md: what a step and a write can do, and that every step keeps the invariant (O40). -/

namespace Sys2Proof.Machine

/-! ### What a step, an engine's turn and a write can do -/

theorem step_of_nil {s : State} (h : s.pending = []) : step s = engineTurn s := by
  simp [step, h]

theorem step_of_cons {s : State} {e : Event} {rest : List Event} (h : s.pending = e :: rest) :
    step s = handle e { s with pending := rest } := by
  simp [step, h]

/-- Every next state of an engine's turn, said once: an IDLE engine waits, and a BUSY one runs the command of its word or
records IllegalCommand (30_encoding.md R111, R112). -/
theorem engineTurn_next_cases {s t : State} (h : engineTurn s = .next t) :
    t = s ∨
    (∃ o i, s.engine = .busy o ∧ decode o.word = .ok i ∧ exec i s = .next t) ∨
    ∃ v, t = s.raiseError (illegalCommand v) := by
  cases he : s.engine with
  | idle =>
    left
    simpa [engineTurn, he, eq_comm] using h
  | busy o =>
    rw [engineTurn_busy s o he, runWord] at h
    cases hd : decode o.word with
    | ok i => exact .inr (.inl ⟨o, i, rfl, hd, by simpa only [hd] using h⟩)
    | error x => exact .inr (.inr ⟨o.word, by simpa [hd, eq_comm] using h⟩)

@[simp] theorem writeReg_mem (v : Word) (s : State) (r : Reg) : (writeReg v s r).mem = s.mem := by
  cases r <;> rfl

/-- OUT is RO (20_memory.md R85). -/
@[simp] theorem writeMem_out (off : BitVec 17) (v : Word) (s : State) : writeMem off v s .out = s := rfl

theorem writeMem_of_ne_out (off : BitVec 17) (v : Word) (s : State) {g : Region} (h : g ≠ .out) :
    writeMem off v s g = { s with mem := s.mem.writeWord off.toNat v } := by
  cases g with
  | out => exact absurd rfl h
  | rawTap | coef | rawSample | sample => rfl

/-- In a legal build the words of the other memories end below OUT (20_memory.md R81). -/
theorem covers_below_out {nmax lmax a : Nat} {g : Region} (hn : nmax ≤ 4096) (hl : lmax ≤ 512) (hg : g ≠ .out)
    (hc : g.covers nmax lmax a = true) (h4 : a % 4 = 0) : a + 4 ≤ Region.out.base := by
  rw [covers_iff] at hc
  cases g with
  | out => exact absurd rfl hg
  | rawTap | coef | rawSample | sample =>
    simp only [Region.base, Region.entryBytes, Region.entries] at hc ⊢
    omega

/-! ### How many words a command stores -/

theorem quantizedWords_length {s : State} {ws : List Word} (h : quantizedWords s = .ok ws) : ws.length ≤ s.lmax := by
  obtain ⟨_, taps, hl, -, hn, -, -, rfl⟩ := (quantizedWords_eq_ok s ws).mp h
  rw [List.length_map, hn]
  exact hl.taps.2

theorem normalizedWords_length {s : State} {ws : List Word} (h : normalizedWords s = .ok ws) : ws.length ≤ s.nmax := by
  obtain ⟨raw, hl, hn, -, rfl⟩ := (normalizedWords_eq_ok s ws).mp h
  rw [List.length_map, hn]
  exact hl.samples

theorem convolvedWords_length {s : State} {ws : List Word} (h : convolvedWords s = .ok ws) :
    ws.length ≤ s.nmax + s.lmax - 1 := by
  obtain ⟨q, x, hl, -, -, -, -, rfl⟩ := (convolvedWords_eq_ok s ws).mp h
  rw [List.length_map, List.length_range]
  exact outputCount_le _ _ _ _ _ hl.samples hl.taps

/-! ### Each update keeps the invariant -/

/-- The invariant does not speak of the host's side, the draw counter and the accumulator. -/
theorem State.Inv.frame {s : State} (hi : s.Inv) (p : List Event) (r : Option BusResponse) (d : Nat) (a : DWord) :
    State.Inv { s with pending := p, response := r, draws := d, acc := a } :=
  hi.congr rfl rfl rfl (hi.flags.congr hi.flags.busyNotDone (.inl rfl) rfl rfl rfl rfl)
    ⟨hi.snapshot.cfg0, hi.snapshot.cfg1, hi.snapshot.nlen, hi.snapshot.llen⟩ (hi.reserved.congr rfl rfl rfl)

theorem State.Inv.respond {s : State} (hi : s.Inv) (r : BusResponse) : (s.respond r).Inv :=
  hi.frame s.pending (some r) s.draws s.acc

theorem State.Inv.leaveAccumulator {s : State} (hi : s.Inv) (n : Nat) : (leaveAccumulator n s).Inv := by
  unfold Machine.leaveAccumulator
  split
  · exact hi
  · exact hi.frame s.pending s.response _ _

/-- While IDLE there is no snapshot to agree with, so the operand registers may take any value with reserved bits 0. -/
theorem State.Inv.withOperands {s : State} (hi : s.Inv) (hidle : s.engine = .idle) (c₀ c₁ n l : Word)
    (hr : State.ReservedZero { s with cfg0 := c₀, cfg1 := c₁, nlen := n, llen := l }) :
    State.Inv { s with cfg0 := c₀, cfg1 := c₁, nlen := n, llen := l } :=
  hi.congr rfl rfl rfl (hi.flags.congr hi.flags.busyNotDone (.inl rfl) rfl rfl rfl rfl)
    (State.snapshotAgrees_of_idle hidle) hr

theorem State.Inv.withStores {s : State} (hi : s.Inv) {m : Memory} (hm : m.Sound s.nmax s.lmax) {w : Word}
    (hw : w.toNat ≤ s.nmax + s.lmax - 1) : State.Inv { s with mem := m, outlen := w } where
  build := hi.build.congr rfl
  memory := hm
  flags := hi.flags.congr hi.flags.busyNotDone (.inl rfl) rfl rfl rfl rfl
  snapshot := ⟨hi.snapshot.cfg0, hi.snapshot.cfg1, hi.snapshot.nlen, hi.snapshot.llen⟩
  reserved := hi.reserved.congr rfl rfl rfl
  outlenLe := hw

theorem State.Inv.accept {s : State} (hi : s.Inv) (w : Word) : (s.accept w).Inv :=
  hi.congr rfl rfl rfl
    ⟨fun _ => rfl, nofun, nofun, fun _ => rfl, fun _ => rfl, fun _ => rfl, nofun⟩
    (by constructor <;> (rintro _ ⟨⟩; rfl)) (hi.reserved.congr rfl rfl rfl)

theorem State.Inv.complete {s : State} (hi : s.Inv) : s.complete.Inv :=
  hi.congr rfl rfl rfl (hi.flags.congr nofun (.inr rfl) rfl rfl rfl rfl)
    (State.snapshotAgrees_of_idle rfl) (hi.reserved.congr rfl rfl rfl)

theorem State.Inv.raiseError {s : State} (hi : s.Inv) {e : CommandError} (h0 : e.code ≠ .noError)
    (h7 : e.code ≠ .shapeMismatch) : (s.raiseError e).Inv :=
  hi.congr rfl rfl rfl ⟨nofun, fun _ => rfl, fun _ => h0, nofun, nofun, nofun, h7⟩
    (State.snapshotAgrees_of_idle rfl) (hi.reserved.congr rfl rfl rfl)

theorem State.Inv.passCycle {s : State} (hi : s.Inv) : (passCycle s).Inv := by
  unfold Machine.passCycle
  split
  · exact hi
  · next o ho =>
    refine hi.congr rfl rfl rfl
      (hi.flags.congr (fun _ => hi.flags.busyNotDone (s.isBusy_busy o ho)) (.inl rfl) rfl rfl rfl rfl)
      ⟨?_, ?_, ?_, ?_⟩ (hi.reserved.congr rfl rfl rfl) <;> rintro _ ⟨⟩
    · exact hi.snapshot.cfg0 o ho
    · exact hi.snapshot.cfg1 o ho
    · exact hi.snapshot.nlen o ho
    · exact hi.snapshot.llen o ho

theorem State.reset_reservedZero : State.reset.ReservedZero := ⟨by decide, by decide, by decide⟩

/-- Reset re-establishes the invariant in any legal build (70_reset_and_hazards.md R290-R292). -/
theorem State.LegalBuild.resetBlock_inv {s : State} (hb : s.LegalBuild) : (resetBlock s).Inv where
  build := hb.congr rfl
  memory := .empty _ _
  flags := ⟨nofun, nofun, nofun, fun _ => rfl, fun _ => rfl, fun _ => rfl, nofun⟩
  snapshot := State.snapshotAgrees_of_idle rfl
  reserved := State.reset_reservedZero.congr rfl rfl rfl
  outlenLe := Nat.zero_le _

/-! ### Each input keeps the invariant -/

theorem writeReg_keeps_inv {s : State} (hi : s.Inv) (hidle : s.engine = .idle) (v : Word) (r : Reg) :
    (writeReg v s r).Inv := by
  obtain ⟨-, h5, -, h16⟩ := write_masks v
  obtain ⟨hr1, hrn, hrl⟩ := hi.reserved
  cases r with
  | id | param | status | outlen | errIdx | errValLo | errValHi => exact hi
  | cmd => exact hi.accept v
  | cfg0 => exact hi.withOperands hidle v s.cfg1 s.nlen s.llen ⟨hr1, hrn, hrl⟩
  | cfg1 => exact hi.withOperands hidle s.cfg0 _ s.nlen s.llen ⟨h5, hrn, hrl⟩
  | nlen => exact hi.withOperands hidle s.cfg0 s.cfg1 _ s.llen ⟨hr1, h16, hrl⟩
  | llen => exact hi.withOperands hidle s.cfg0 s.cfg1 s.nlen _ ⟨hr1, hrn, h16⟩

/-- The host can store no word in OUT, so a store need not be narrow. -/
theorem writeMem_keeps_inv {s : State} (hi : s.Inv) {off : BitVec 17} (v : Word) {g : Region} (h4 : off.toNat % 4 = 0)
    (hc : g.covers s.nmax s.lmax off.toNat = true) : (writeMem off v s g).Inv := by
  by_cases hg : g = .out
  · subst hg
    exact hi
  · have hbelow := covers_below_out hi.build.nmaxLe hi.build.lmaxLe hg hc h4
    rw [writeMem_of_ne_out off v s hg]
    exact hi.withStores
      (hi.memory.storeWord g _ v hi.build.nmaxLe hi.build.lmaxLe h4 hc fun h => absurd h (by omega)) hi.outlenLe

theorem transact_keeps_inv {s u : State} {t : Transaction} (hi : s.Inv) (h : transact t s = .next u) : u.Inv := by
  rcases transact_next_cases t s u h with ⟨r, d, rfl⟩ | ⟨off, v, p, -, hidle, h4, hp, rfl⟩
  · exact hi.frame s.pending r d s.acc
  · cases p with
    | reg r => exact (writeReg_keeps_inv hi hidle v r).respond .ok
    | mem g =>
      have hc := (placeAt_mem_iff _ _ _ _ hi.build.nmaxLe hi.build.lmaxLe).mp hp
      exact (writeMem_keeps_inv hi v h4 hc).respond .ok

theorem exec_keeps_inv {s t : State} {i : Instr} (hi : s.Inv) (h : exec i s = .next t) : t.Inv := by
  obtain ⟨-, hn, -, hl⟩ := hi.build
  rcases exec_next_cases i s t h with
    ⟨e, rfl, h0, h7⟩ | ⟨-, ws, hw, rfl⟩ | ⟨-, ws, hw, rfl⟩ | ⟨-, ws, hw, rfl⟩
  · exact hi.raiseError h0 h7
  · have hlen := (Nat.zero_add _).trans_le (quantizedWords_length hw)
    exact (hi.withStores (hi.memory.storeEntries .coef rfl hn hl ws 0 _ hlen nofun) hi.outlenLe).complete
  · have hlen := (Nat.zero_add _).trans_le (normalizedWords_length hw)
    exact (hi.withStores (hi.memory.storeEntries .sample rfl hn hl ws 0 _ hlen nofun) hi.outlenLe).complete
  · have hlen := convolvedWords_length hw
    have hm := hi.memory.storeEntries .out rfl hn hl ws 0 _ ((Nat.zero_add _).trans_le hlen)
      fun _ => convolvedWords_narrow s ws hw
    exact ((hi.withStores hm ((Nat.mod_le _ _).trans hlen)).leaveAccumulator ws.length).complete

theorem engineTurn_keeps_inv {s t : State} (hi : s.Inv) (h : engineTurn s = .next t) : t.Inv := by
  rcases engineTurn_next_cases h with rfl | ⟨o, i, -, -, h⟩ | ⟨v, rfl⟩
  · exact hi
  · exact exec_keeps_inv hi h
  · exact hi.raiseError nofun nofun

theorem handle_keeps_inv {s t : State} {e : Event} (hi : s.Inv) (h : handle e s = .next t) : t.Inv := by
  cases e with
  | bus b => exact transact_keeps_inv hi h
  | cycle => exact Host.Outcome.next.inj h ▸ hi.passCycle
  | engine => exact engineTurn_keeps_inv hi h
  | reset => exact Host.Outcome.next.inj h ▸ hi.build.resetBlock_inv

/-- Settles O40: taking an input off the list keeps the invariant, and so does each of the four kinds of input. -/
theorem stepKeepsTheInvariant : Obligations.StepKeepsTheInvariant := by
  intro s t hi h
  cases hp : s.pending with
  | nil => exact engineTurn_keeps_inv hi (step_of_nil hp ▸ h)
  | cons e rest => exact handle_keeps_inv (hi.frame rest s.response s.draws s.acc) (step_of_cons hp ▸ h)

end Sys2Proof.Machine
end

section
/-! Family 10_state.md: a command that comes to an entry never written faults (R56). -/

namespace Sys2Proof.Machine

/-- A scan stops at the first step that stops. -/
theorem scan_stops_at {α : Type} {f : Nat → Except Stop α} {n k : Nat} {x : Stop} (hk : k < n)
    (hpre : ∀ j < k, ∃ a, f j = .ok a) (hx : f k = .error x) : scan f 0 n = .error x :=
  (scan_eq_error f 0 n x).mpr ⟨k, hk, by rwa [Nat.zero_add], by simpa only [Nat.zero_add] using hpre⟩

theorem execQuantize_unwritten {s : State} {k : Nat} (hl : s.QuantizeLegal) (hk : k < s.operands.tapCount)
    (hpre : ∀ j < k, ∃ c, s.rawTapIs j c ∧ finite64 c = true) (hu : s.mem.readDWord (0x01000 + 8 * k) = none) :
    exec .quantize s = .fault (.neverWritten .rawTap k) := by
  have hscan : scan (finiteTap s) 0 s.operands.tapCount = .error (.fault (.neverWritten .rawTap k)) :=
    scan_stops_at hk (fun j hj => (hpre j hj).imp fun c hc => (finiteTap_eq_ok s j c).mpr hc)
      ((finiteTap_eq_error s k _).mpr (.inl ⟨hu, rfl⟩))
  obtain ⟨rnd, -, hw⟩ := quantizedWords_of_legal s hl
  exact execQuantize_of_fault s _ (by rw [hw, hscan, except_error_bind])

theorem execNormalize_unwritten {s : State} {i : Nat} (hl : s.NormalizeLegal) (hi : i < s.operands.sampleCount)
    (hpre : ∀ j < i, ∃ c, s.rawSampleIs j c ∧ (s.operands.intSamples || finite64 c) = true)
    (hu : s.mem.readDWord (0x08000 + 8 * i) = none) : exec .normalize s = .fault (.neverWritten .rawSample i) := by
  have hscan : scan (finiteSample s.operands.intSamples s) 0 s.operands.sampleCount =
      .error (.fault (.neverWritten .rawSample i)) :=
    scan_stops_at hi (fun j hj => (hpre j hj).imp fun c hc => (finiteSample_eq_ok _ s j c).mpr hc)
      ((finiteSample_eq_error _ s i _).mpr (.inl ⟨hu, rfl⟩))
  exact execNormalize_of_fault s _ (by rw [normalizedWords_of_legal s hl, hscan, except_error_bind])

/-- A coefficient that is written and in the C-bit range passes its check (42_convolve.md R203). -/
theorem rangedCoef_ok {s : State} {k : Nat} (h : ∃ w, s.coefIs k w ∧ -2 ^ (s.operands.coeffBits - 1) ≤ w.toInt ∧
    w.toInt ≤ 2 ^ (s.operands.coeffBits - 1) - 1) : ∃ q, rangedCoef s.operands.coeffBits s k = .ok q := by
  obtain ⟨w, hw, hlo, hhi⟩ := h
  exact ⟨_, (rangedCoef_eq_ok _ s k _).mpr ⟨w, hw, hlo, hhi, rfl⟩⟩

/-- A sample that is written and at most 2^D - 1 passes its check (42_convolve.md R204). -/
theorem rangedSample_ok {s : State} {i : Nat} (h : ∃ w, s.sampleIs i w ∧ w.toNat ≤ 2 ^ s.operands.dataBits - 1) :
    ∃ x, rangedSample s.operands.dataBits s i = .ok x := by
  obtain ⟨w, hw, hle⟩ := h
  exact ⟨_, (rangedSample_eq_ok _ s i _).mpr ⟨w, hw, (le_sampleMax _ _).mpr hle, rfl⟩⟩

theorem execConvolve_unwritten_coef {s : State} {k : Nat} (hl : s.ConvolveLegal) (hk : k < s.operands.tapCount)
    (hpre : ∀ j < k, ∃ q, rangedCoef s.operands.coeffBits s j = .ok q) (hu : s.mem.readWord (0x02000 + 4 * k) = none) :
    exec .convolve s = .fault (.neverWritten .coef k) := by
  have hscan : scan (rangedCoef s.operands.coeffBits s) 0 s.operands.tapCount = .error (.fault (.neverWritten .coef k)) :=
    scan_stops_at hk hpre ((rangedCoef_eq_error _ s k _).mpr (.inl ⟨hu, rfl⟩))
  exact execConvolve_of_fault s _ (by rw [convolvedWords_of_legal s hl, hscan, except_error_bind])

theorem execConvolve_unwritten_sample {s : State} {i : Nat} (hl : s.ConvolveLegal)
    (hcoef : ∀ k < s.operands.tapCount, ∃ q, rangedCoef s.operands.coeffBits s k = .ok q)
    (hi : i < s.operands.sampleCount) (hpre : ∀ j < i, ∃ x, rangedSample s.operands.dataBits s j = .ok x)
    (hu : s.mem.readWord (0x10000 + 4 * i) = none) : exec .convolve s = .fault (.neverWritten .sample i) := by
  obtain ⟨q, hq⟩ := scan_of_all _ _ hcoef
  have hscan : scan (rangedSample s.operands.dataBits s) 0 s.operands.sampleCount =
      .error (.fault (.neverWritten .sample i)) :=
    scan_stops_at hi hpre ((rangedSample_eq_error _ s i _).mpr (.inl ⟨hu, rfl⟩))
  exact execConvolve_of_fault s _
    (by rw [convolvedWords_of_legal s hl, hq, except_ok_bind, hscan, except_error_bind])

/-- Settles O34: the scan that comes to the entry stops there, after steps that all succeed. -/
theorem consumingAnUnwrittenEntryFaults : Obligations.ConsumingAnUnwrittenEntryFaults := by
  refine ⟨?_, ?_, ?_, ?_⟩
  · intro s k hl hk hpre hu
    exact execQuantize_unwritten hl hk hpre (Memory.readDWord_none _ _ hu)
  · intro s i hl hi hpre hu
    refine execNormalize_unwritten hl hi (fun j hj => ?_) (Memory.readDWord_none _ _ hu)
    obtain ⟨c, hc, hf⟩ := hpre j hj
    refine ⟨c, hc, ?_⟩
    cases hz : s.operands.intSamples with
    | true => rfl
    | false => exact hf hz
  · intro s k hl hk hpre hu
    exact execConvolve_unwritten_coef hl hk (fun j hj => rangedCoef_ok (hpre j hj)) hu
  · intro s i hl hcoef hi hpre hu
    exact execConvolve_unwritten_sample hl (fun k hk => rangedCoef_ok (hcoef k hk)) hi
      (fun j hj => rangedSample_ok (hpre j hj)) hu

end Sys2Proof.Machine
end

section
/-! Family 10_state.md: what each kind of input leaves alone, and where a fault comes from. -/

namespace Sys2Proof.Machine

/-! ### OUT -/

theorem transact_keeps_out {s u : State} {t : Transaction} {a : Nat} (hb : s.LegalBuild) (h : transact t s = .next u)
    (ha : Region.out.base ≤ a) : u.mem.read a = s.mem.read a := by
  rcases transact_next_cases t s u h with ⟨r, d, rfl⟩ | ⟨off, v, p, -, -, h4, hp, rfl⟩
  · rfl
  · rw [State.respond_mem]
    cases p with
    | reg r => rw [writePlace, writeReg_mem]
    | mem g =>
      rw [writePlace]
      by_cases hg : g = .out
      · rw [hg, writeMem_out]
      · have hc := (placeAt_mem_iff _ _ _ _ hb.nmaxLe hb.lmaxLe).mp hp
        have hbelow := covers_below_out hb.nmaxLe hb.lmaxLe hg hc h4
        rw [writeMem_of_ne_out _ _ _ hg]
        exact Memory.read_writeWord_outside _ _ _ _ (.inr (hbelow.trans ha))

/-- QUANTIZE and NORMALIZE store below OUT, and an error stores nothing. -/
theorem exec_keeps_out {s t : State} {i : Instr} {a : Nat} (hb : s.LegalBuild) (h : exec i s = .next t)
    (hi : i ≠ .convolve) (ha : Region.out.base ≤ a) : t.mem.read a = s.mem.read a := by
  obtain ⟨-, hn, -, hl⟩ := hb
  rcases exec_next_cases i s t h with ⟨e, rfl, -, -⟩ | ⟨-, ws, hw, rfl⟩ | ⟨-, ws, hw, rfl⟩ | ⟨hc, -⟩
  · rfl
  · have hlen := quantizedWords_length hw
    refine Memory.read_writeEntries_outside .coef rfl ws 0 s.mem a (.inr ?_)
    simp only [Region.addr, Region.base, Region.entryBytes] at ha ⊢
    omega
  · have hlen := normalizedWords_length hw
    refine Memory.read_writeEntries_outside .sample rfl ws 0 s.mem a (.inr ?_)
    simp only [Region.addr, Region.base, Region.entryBytes] at ha ⊢
    omega
  · exact absurd hc hi

/-- Settles O37, by the kind of input: of an engine's turns only that of an accepted CONVOLVE reaches OUT. -/
theorem onlyConvolveWritesOut : Obligations.OnlyConvolveWritesOut := by
  intro e s t a hb h hreset ha hne
  cases e with
  | bus b => exact absurd (transact_keeps_out hb h ha) hne
  | cycle =>
    obtain rfl := Host.Outcome.next.inj h
    exact absurd (by rw [passCycle_mem]) hne
  | reset => exact absurd rfl hreset
  | engine =>
    refine ⟨rfl, ?_⟩
    rcases engineTurn_next_cases h with rfl | ⟨o, i, ho, hd, hx⟩ | ⟨v, rfl⟩
    · exact absurd rfl hne
    · by_cases hi : i = .convolve
      · exact ⟨o, ho, hi ▸ hd⟩
      · exact absurd (exec_keeps_out hb hx hi ha) hne
    · exact absurd rfl hne

/-! ### STATUS and the error registers -/

/-- CMD is at 0x008 and nowhere else (20_memory.md R80). -/
theorem placeAt_cmd_iff (nmax lmax a : Nat) : placeAt nmax lmax a = some (.reg .cmd) ↔ a = 0x008 := by
  refine ⟨fun h => ?_, fun h => h ▸ rfl⟩
  unfold placeAt at h
  split at h
  · next r hr =>
    obtain rfl : r = .cmd := by simpa using h
    unfold regAt at hr
    split at hr <;> simp_all
  · split at h <;> simp at h

/-- A write that offers no command leaves STATUS and the error registers (20_memory.md R85). -/
theorem writePlace_keeps_status (off : BitVec 17) (v : Word) (s : State) {p : Place} (h : p ≠ .reg .cmd) :
    (writePlace off v s p).statusWord = s.statusWord ∧ (writePlace off v s p).errIdx = s.errIdx ∧
      (writePlace off v s p).errVal = s.errVal := by
  cases p with
  | reg r =>
    cases r with
    | cmd => exact absurd rfl h
    | id | param | status | cfg0 | cfg1 | nlen | llen | outlen | errIdx | errValLo | errValHi => exact ⟨rfl, rfl, rfl⟩
  | mem g => cases g <;> exact ⟨rfl, rfl, rfl⟩

@[simp] theorem passCycle_isBusy (s : State) : (passCycle s).isBusy = s.isBusy := by
  unfold passCycle
  split
  · rfl
  · next o ho => rw [s.isBusy_busy o ho]; rfl

@[simp] theorem passCycle_statusWord (s : State) : (passCycle s).statusWord = s.statusWord := by
  simp [State.statusWord]

/-- Settles O38: a transaction moves the response and the draw counter or writes a place, and only CMD's place while IDLE
is an acceptance. -/
theorem onlyAcceptanceAndTheEngineChangeStatus : Obligations.OnlyAcceptanceAndTheEngineChangeStatus := by
  intro e s t h hreset hengine hcmd
  cases e with
  | reset => exact absurd rfl hreset
  | engine => exact absurd rfl hengine
  | cycle =>
    obtain rfl := Host.Outcome.next.inj h
    exact ⟨passCycle_statusWord s, passCycle_errIdx s, passCycle_errVal s⟩
  | bus b =>
    rcases transact_next_cases b s t h with ⟨r, d, rfl⟩ | ⟨off, v, p, rfl, hidle, -, hp, rfl⟩
    · exact ⟨rfl, rfl, rfl⟩
    · refine writePlace_keeps_status off v s ?_
      rintro rfl
      have hoff : off = 0x008#17 := BitVec.eq_of_toNat_eq ((placeAt_cmd_iff _ _ _).mp hp)
      rcases hcmd with hbusy | hcmd
      · exact hbusy hidle
      · exact hcmd v (by rw [hoff])

/-! ### Faults -/

/-- Settles O42: a fault is a transaction's or an engine's turn's, and each says its cause. -/
theorem faultsHaveTheirCause : Obligations.FaultsHaveTheirCause := by
  intro s f h
  cases hp : s.pending with
  | nil => exact .inr ⟨.inl rfl, engineTurn_eq_fault s f (step_of_nil hp ▸ h)⟩
  | cons e rest =>
    rw [step_of_cons hp] at h
    cases e with
    | bus t => exact .inl ⟨t, rest, rfl, transact_eq_fault t { s with pending := rest } f h⟩
    | engine => exact .inr ⟨.inr ⟨rest, rfl⟩, engineTurn_eq_fault { s with pending := rest } f h⟩
    | cycle => exact nomatch h
    | reset => exact nomatch h

end Sys2Proof.Machine
end

section
/-! Family 10_state.md: acceptance (R54), writes while BUSY (R52), and what the registers read as (R33-R43). -/

namespace Sys2Proof.Machine

/-! ### Writes -/

theorem transact_writeWordAt_idle {s : State} {off : BitVec 17} {p : Place} (v : Word) (hidle : s.engine = .idle)
    (h4 : off.toNat % 4 = 0) (hp : placeAt s.nmax s.lmax off.toNat = some p) :
    transact (writeWordAt off v) s = .next ((writePlace off v s p).respond .ok) := by
  have hc := (busCheck_eq_ok off 32 0xF#4 s p).mpr ⟨h4, rfl, rfl, hp⟩
  simp [writeWordAt, transact, busWrite, hc, hidle]

theorem transact_write_busy {s : State} {o : Snapshot} (off : BitVec 17) (bits : Nat) (lanes : BitVec 4) (v : Word)
    (hbusy : s.engine = .busy o) :
    transact (.write off bits lanes v) s = .next (s.respond .okDropped) ∨
      ∃ f, busCheck off bits lanes s = .error f ∧ transact (.write off bits lanes v) s = .fault f := by
  cases hc : busCheck off bits lanes s with
  | ok p => exact .inl (by simp [transact, busWrite, hc, s.isBusy_busy o hbusy])
  | error f => exact .inr ⟨f, rfl, by simp [transact, busWrite, hc]⟩

/-- Settles O8: offset 0x008 names CMD, and a write of CMD while IDLE is the acceptance. -/
theorem commandWriteIsAccepted : Obligations.CommandWriteIsAccepted := by
  intro s v rest hidle hp
  rw [step_of_cons hp]
  exact transact_writeWordAt_idle (s := { s with pending := rest }) (off := 0x008#17) v hidle rfl
    ((placeAt_cmd_iff _ _ _).mpr rfl)

/-- Settles O16: a write that passes the bus check is dropped, and one that does not meets a condition of R86. -/
theorem writesWhileBusyAreDropped : Obligations.WritesWhileBusyAreDropped := by
  intro s o off bits lanes v rest hbusy hp
  rw [step_of_cons hp]
  rcases transact_write_busy (s := { s with pending := rest }) off bits lanes v hbusy with h | ⟨f, hc, h⟩
  · exact .inl h
  · refine .inr ⟨?_, f, h⟩
    rcases (busCheck_fails_iff off bits lanes _).mp ⟨f, hc⟩ with h | h | h | h | h
    · exact .inl h
    · exact .inr (.inl h.ne)
    · exact .inr (.inr (.inl h))
    · exact .inr (.inl h.ne')
    · exact .inr (.inr (.inr h))

/-! ### The fields of STATUS (10_state.md R36) -/

/-- Every bit of STATUS, said once. -/
theorem State.getLsbD_statusWord (s : State) (i : Nat) :
    s.statusWord.getLsbD i =
      if i = 0 then s.isBusy else if i = 1 then s.done else if i = 2 then s.err
      else if i < 8 then false else s.errCode.number.getLsbD (i - 8) := by
  simp only [State.statusWord, BitVec.getLsbD_append]
  match i with
  | 0 | 1 | 2 => simp
  | i + 3 =>
    by_cases h : i < 5
    · simp [h, show i + 3 < 8 by omega]
    · have hcode : s.errCode.number.getLsbD (i - 5) = true → i - 5 < 8 := BitVec.lt_of_getLsbD
      simpa [h, show ¬i + 3 < 8 by omega] using hcode

theorem State.statusWord_reservedLow (s : State) : s.statusWord.extractLsb' 3 5 = 0#5 := by
  apply BitVec.eq_of_getLsbD_eq
  intro i hi
  have hpos : 3 + i ≠ 1 ∧ 3 + i ≠ 2 ∧ 3 + i < 8 := by omega
  simp [s.getLsbD_statusWord, hpos]

theorem State.statusWord_errCode (s : State) : s.statusWord.extractLsb' 8 8 = s.errCode.number := by
  apply BitVec.eq_of_getLsbD_eq
  intro i hi
  have hpos : 8 + i ≠ 1 ∧ 8 + i ≠ 2 ∧ ¬8 + i < 8 := by omega
  simp [s.getLsbD_statusWord, hi, hpos]

theorem State.statusWord_reservedHigh (s : State) : s.statusWord.extractLsb' 16 16 = 0#16 := by
  apply BitVec.eq_of_getLsbD_eq
  intro i hi
  have hpos : 16 + i ≠ 1 ∧ 16 + i ≠ 2 ∧ ¬16 + i < 8 := by omega
  have hcode : s.errCode.number.getLsbD (16 + i - 8) = false := BitVec.getLsbD_of_ge _ _ (by omega)
  simp [s.getLsbD_statusWord, hpos, hcode]

/-- BUSY is 1 exactly when the engine is not IDLE (10_state.md R50). -/
theorem State.isBusy_iff_not_idle (s : State) : s.isBusy = true ↔ s.engine ≠ .idle := by
  rw [ne_eq, ← s.isBusy_eq_false, Bool.not_eq_false]

/-- Settles O17: STATUS by its fields, ERRVAL by its two halves, and the other registers by definition. -/
theorem registersReadAsLaidOut : Obligations.RegistersReadAsLaidOut := by
  intro s
  refine ⟨rfl, rfl, rfl, rfl, rfl, rfl, rfl, rfl, rfl, append_extract (n := 32) (m := 32) s.errVal, ?_,
    s.getLsbD_statusWord 1, s.getLsbD_statusWord 2, s.statusWord_reservedLow, s.statusWord_errCode, s.statusWord_reservedHigh⟩
  rw [← s.isBusy_iff_not_idle]
  exact iff_of_eq (congrArg (· = true) (s.getLsbD_statusWord 0))

end Sys2Proof.Machine
end

section
/-! Family 20_memory.md: the window (R80-R83) and the byte order of words and 64-bit entries (R82, R87). -/

namespace Sys2Proof.Machine

/-! ### The platform's window -/

/-- Settles O20: an offset is below 2^17 bytes, so it stays in the window and comes back unchanged. -/
theorem windowOfThePlatform : Obligations.WindowOfThePlatform := by
  refine ⟨fun off => ?_, fun a ha => ?_⟩
  · have hin : Config.firBase ≤ Config.firBase + off.toNat ∧
        Config.firBase + off.toNat < Config.firBase + Config.windowBytes :=
      ⟨Nat.le_add_right _ _, Nat.add_lt_add_left off.isLt _⟩
    rw [windowOffset, if_pos hin, Nat.add_sub_cancel_left, BitVec.ofNat_toNat, BitVec.setWidth_eq]
  · rw [windowOffset, if_neg]
    rintro ⟨hlo, hhi⟩
    rw [Config.windowBytes] at hhi
    omega

/-! ### Registers -/

theorem placeAt_reg_iff (nmax lmax a : Nat) (r : Reg) : placeAt nmax lmax a = some (.reg r) ↔ regAt a = some r := by
  unfold placeAt
  cases regAt a with
  | some r' => simp
  | none => cases regionAt nmax lmax a <;> simp

/-- The registers take the words below 0x030 (20_memory.md R80). -/
theorem placeAt_isReg_iff (nmax lmax a : Nat) (h4 : a % 4 = 0) :
    (∃ r, placeAt nmax lmax a = some (.reg r)) ↔ a < 0x030 := by
  simp only [placeAt_reg_iff]
  refine ⟨fun ⟨r, hr⟩ => ?_, fun h => regAt_some a h h4⟩
  by_contra hge
  rw [regAt_none a (by omega)] at hr
  exact nomatch hr

/-- Every memory begins above the register block (20_memory.md R81). -/
theorem Region.base_ge (g : Region) : 0x1000 ≤ g.base := by
  cases g <;> decide

theorem regionAt_none (nmax lmax a : Nat) (h : a < 0x1000) : regionAt nmax lmax a = none := by
  cases hr : regionAt nmax lmax a with
  | none => rfl
  | some g =>
    have hcov := (covers_iff _ _ _ _).mp (regionAt_covers _ _ _ _ hr)
    have hbase := g.base_ge
    omega

/-- Settles O11: each register by the map's own table, and the rest is above every register and below every memory. -/
theorem registerOffsets : Obligations.RegisterOffsets := by
  intro nmax lmax
  refine ⟨rfl, rfl, rfl, rfl, rfl, rfl, rfl, rfl, rfl, rfl, rfl, rfl, fun a hlo hhi => ?_⟩
  rw [placeAt, regAt_none a hlo, regionAt_none nmax lmax a (by omega)]

/-! ### Entries -/

/-- The words of n 32-bit entries from an aligned base are the entries' addresses. -/
theorem word_of_entries_iff {b n a : Nat} (hb : b % 4 = 0) (h4 : a % 4 = 0) :
    b ≤ a ∧ a < b + 4 * n ↔ ∃ k < n, a = b + 4 * k := by
  constructor
  · rintro ⟨hlo, hhi⟩
    exact ⟨(a - b) / 4, by omega, by omega⟩
  · rintro ⟨k, hk, rfl⟩
    omega

/-- The words of n 64-bit entries from an aligned base are the addresses of the entries and of their high halves. -/
theorem word_of_wide_entries_iff {b n a : Nat} (hb : b % 4 = 0) (h4 : a % 4 = 0) :
    b ≤ a ∧ a < b + 8 * n ↔ ∃ k < n, a = b + 8 * k ∨ a = b + 8 * k + 4 := by
  constructor
  · rintro ⟨hlo, hhi⟩
    exact ⟨(a - b) / 8, by omega, by omega⟩
  · rintro ⟨k, hk, rfl | rfl⟩ <;> omega

/-- Settles O12: a memory's words are the ones it covers, counted in its entries. -/
theorem memoryEntryOffsets : Obligations.MemoryEntryOffsets := by
  intro nmax lmax a _ hn _ hl h4
  have hmem (g : Region) := (placeAt_mem_iff nmax lmax a g hn hl).trans (covers_iff nmax lmax a g)
  exact ⟨(hmem .rawTap).trans (word_of_wide_entries_iff rfl h4), (hmem .coef).trans (word_of_entries_iff rfl h4),
    (hmem .rawSample).trans (word_of_wide_entries_iff rfl h4), (hmem .sample).trans (word_of_entries_iff rfl h4),
    (hmem .out).trans (word_of_entries_iff rfl h4), placeAt_isReg_iff nmax lmax a h4⟩

/-! ### Byte order -/

theorem Memory.read_writeWord_byte (m : Memory) (a j : Nat) (v : Word) (hj : j < 4) :
    (m.writeWord a v).read (a + j) = some (v.extractLsb' (8 * j) 8) := by
  rw [Memory.read_writeWord]
  interval_cases j <;> simp

/-- A 64-bit entry has its value once both halves do. -/
theorem Memory.readDWord_of_halves {m : Memory} {a : Nat} {lo hi : Word} (hlo : m.readWord a = some lo)
    (hhi : m.readWord (a + 4) = some hi) : m.readDWord a = some (hi ++ lo) := by
  simp only [Memory.readDWord, hlo, hhi]

/-- Settles O19: the two halves are apart, so the half written first is still there after the other. -/
theorem wordsAndHalvesAreLittleEndian : Obligations.WordsAndHalvesAreLittleEndian := by
  refine ⟨Memory.read_writeWord_byte, fun m a lo hi => ?_, fun m a lo hi => ?_⟩
  · refine Memory.readDWord_of_halves ?_ (Memory.readWord_writeWord_same _ _ _)
    rw [Memory.readWord_writeWord_outside _ _ _ _ (.inl le_rfl), Memory.readWord_writeWord_same]
  · refine Memory.readDWord_of_halves (Memory.readWord_writeWord_same _ _ _) ?_
    rw [Memory.readWord_writeWord_outside _ _ _ _ (.inr le_rfl), Memory.readWord_writeWord_same]

end Sys2Proof.Machine
end

section
/-! Family 20_memory.md: what each host transaction answers and leaves (R84-R86). -/

namespace Sys2Proof.Machine

/-! ### Bus errors -/

/-- Reading a mapped place is no fault. -/
theorem readReg_ne_fault (r : Reg) (s : State) (f : Fault) : readReg r s ≠ .fault f := by
  unfold readReg
  split <;> nofun

theorem readMem_ne_fault (off : BitVec 17) (s : State) (f : Fault) : readMem off s ≠ .fault f := by
  unfold readMem
  split
  · nofun
  · split <;> nofun

theorem transact_read_eq_fault_iff (off : BitVec 17) (bits : Nat) (s : State) (f : Fault) :
    transact (.read off bits) s = .fault f ↔ busCheck off bits 0xF#4 s = .error f := by
  rw [transact, busRead]
  cases busCheck off bits 0xF#4 s with
  | error e => simp
  | ok p =>
    cases p with
    | reg r => simpa using readReg_ne_fault r s f
    | mem g => simpa using readMem_ne_fault off s f

theorem transact_write_eq_fault_iff (off : BitVec 17) (bits : Nat) (lanes : BitVec 4) (v : Word) (s : State) (f : Fault) :
    transact (.write off bits lanes v) s = .fault f ↔ busCheck off bits lanes s = .error f := by
  rw [transact, busWrite]
  cases busCheck off bits lanes s with
  | error e => simp
  | ok p => cases s.isBusy <;> simp

/-- Settles O13: a transaction faults exactly when its bus check does, and a read leaves out no lane. -/
theorem busErrorsAreExactlyR86 : Obligations.BusErrorsAreExactlyR86 := by
  refine ⟨fun s off bits => ?_, fun s off bits lanes v => ?_⟩
  · simpa only [transact_read_eq_fault_iff, ne_eq, not_true_eq_false, false_or] using busCheck_fails_iff off bits 0xF#4 s
  · simpa only [transact_write_eq_fault_iff] using busCheck_fails_iff off bits lanes s

/-- A misaligned or unmapped offset is a bus error whatever the transaction's form. -/
theorem busCheck_fails_of_offset {off : BitVec 17} {s : State} (bits : Nat) (lanes : BitVec 4)
    (h : off.toNat % 4 ≠ 0 ∨ placeAt s.nmax s.lmax off.toNat = none) : ∃ f, busCheck off bits lanes s = .error f :=
  (busCheck_fails_iff off bits lanes s).mpr (h.imp_right fun h => .inr (.inr (.inr h)))

/-! ### Reads -/

theorem busCheck_wholeWord {s : State} {off : BitVec 17} {p : Place} (h4 : off.toNat % 4 = 0)
    (hp : placeAt s.nmax s.lmax off.toNat = some p) : busCheck off 32 0xF#4 s = .ok p :=
  (busCheck_eq_ok off 32 0xF#4 s p).mpr ⟨h4, rfl, rfl, hp⟩

theorem transact_readWordAt_reg {s : State} {off : BitVec 17} {r : Reg} (h4 : off.toNat % 4 = 0)
    (hp : placeAt s.nmax s.lmax off.toNat = some (.reg r)) : transact (readWordAt off) s = readReg r s := by
  simp only [readWordAt, transact, busRead, busCheck_wholeWord h4 hp]

theorem transact_readWordAt_mem {s : State} {off : BitVec 17} {g : Region} (h4 : off.toNat % 4 = 0)
    (hp : placeAt s.nmax s.lmax off.toNat = some (.mem g)) : transact (readWordAt off) s = readMem off s := by
  simp only [readWordAt, transact, busRead, busCheck_wholeWord h4 hp]

theorem readReg_of_unreserved {r : Reg} {s : State} (h : r = .status → s.errCode ≠ .shapeMismatch) :
    readReg r s = .next (s.respond (.data (regValue s r))) := by
  rw [readReg, if_neg]
  simpa using h

theorem readMem_of_written {off : BitVec 17} {s : State} {v : Word} (hidle : s.engine = .idle)
    (hv : s.mem.readWord off.toNat = some v) : readMem off s = .next (s.respond (.data v)) := by
  simp [readMem, hidle, hv]

/-- A word has no value to answer while BUSY (10_state.md R53) or when never written (R56). -/
theorem readMem_of_unspecified {off : BitVec 17} {s : State} (h : s.engine ≠ .idle ∨ s.mem.readWord off.toNat = none) :
    readMem off s = .next s.respondFree := by
  unfold readMem
  split
  · rfl
  · next hb =>
    rcases h with h | h
    · exact absurd (s.isBusy_iff_not_idle.mpr h) hb
    · rw [h]

/-- Settles O14: an offset that passes the bus check names a register or a memory word, and each reads by its own rule. -/
theorem readWordAnswers : Obligations.ReadWordAnswers := by
  intro s off
  refine ⟨fun h => ?_, fun r h4 hp hr => ?_, fun g v h4 hp hidle hv => ?_, fun g h4 hp h => ?_⟩
  · exact (busCheck_fails_of_offset 32 0xF#4 h).imp fun f => (transact_read_eq_fault_iff off 32 s f).mpr
  · exact (transact_readWordAt_reg h4 hp).trans (readReg_of_unreserved hr)
  · exact (transact_readWordAt_mem h4 hp).trans (readMem_of_written hidle hv)
  · exact (transact_readWordAt_mem h4 hp).trans (readMem_of_unspecified h)

/-! ### Writes -/

/-- A good write while BUSY is dropped with an OK (10_state.md R52). -/
theorem transact_writeWordAt_busy {s : State} {off : BitVec 17} {p : Place} (v : Word) (hbusy : s.engine ≠ .idle)
    (h4 : off.toNat % 4 = 0) (hp : placeAt s.nmax s.lmax off.toNat = some p) :
    transact (writeWordAt off v) s = .next (s.respond .okDropped) := by
  simp only [writeWordAt, transact, busWrite, busCheck_wholeWord h4 hp, s.isBusy_iff_not_idle.mpr hbusy, if_true]

/-- The registers a write leaves alone (20_memory.md R85). -/
theorem writeReg_readOnly (v : Word) (s : State) {r : Reg}
    (h : r ∈ [Reg.id, .param, .status, .outlen, .errIdx, .errValLo, .errValHi]) : writeReg v s r = s := by
  cases r with
  | id | param | status | outlen | errIdx | errValLo | errValHi => rfl
  | cmd | cfg0 | cfg1 | nlen | llen => exact absurd h (by decide)

/-- Settles O15: a write of an IDLE block is its place's own, the masks clear the reserved bits, and a stored word leaves
every other byte. -/
theorem writeWordEffects : Obligations.WriteWordEffects := by
  intro s off v
  refine ⟨fun h => ?_, fun p h4 hp hbusy => transact_writeWordAt_busy v hbusy h4 hp, fun h4 hidle => ?_⟩
  · exact (busCheck_fails_of_offset 32 0xF#4 h).imp fun f => (transact_write_eq_fault_iff off 32 0xF#4 v s f).mpr
  have hwrite (p : Place) (hp : placeAt s.nmax s.lmax off.toNat = some p) := transact_writeWordAt_idle v hidle h4 hp
  obtain ⟨hlow5, hres5, hlow16, hres16⟩ := write_masks v
  refine ⟨fun r hr hp => ?_, hwrite (.mem .out), hwrite (.reg .cmd), hwrite (.reg .cfg0),
    fun hp => ⟨_, hwrite _ hp, hlow5, hres5⟩, fun hp => ⟨_, hwrite _ hp, hlow16, hres16⟩,
    fun hp => ⟨_, hwrite _ hp, hlow16, hres16⟩, fun g hg hp => ?_⟩
  · rw [hwrite _ hp, writePlace, writeReg_readOnly v s hr, State.respond]
  · refine ⟨s.mem.writeWord off.toNat v, ?_, Memory.readWord_writeWord_same _ _ _,
      fun a ha => Memory.read_writeWord_outside _ _ _ _ ha⟩
    rw [hwrite _ hp, writePlace, writeMem_of_ne_out off v s hg, State.respond]

end Sys2Proof.Machine
end

section
/-! Family 20_memory.md: what happens between acceptance and completion cannot affect the command (R95). -/

namespace Sys2Proof.Machine

/-- `s`, BUSY with the command of `o`, after inputs that moved only the command's progress, the response and the draw
counter. -/
def State.delayed (s : State) (o : Snapshot) (p : Nat) (r : Option BusResponse) (d : Nat) : State :=
  { s with engine := .busy { o with progress := p }, response := r, draws := d }

theorem State.delayed_self {s : State} {o : Snapshot} (hbusy : s.engine = .busy o) :
    s.delayed o o.progress s.response s.draws = s := by
  simp only [State.delayed, ← hbusy]

/-! ### Inputs while BUSY only delay -/

theorem passCycle_busy {s : State} {o : Snapshot} (hbusy : s.engine = .busy o) :
    passCycle s = s.delayed o (o.progress + 1) s.response s.draws := by
  simp only [passCycle, hbusy, State.delayed]

theorem handle_busy_delays {s t : State} {o : Snapshot} {e : Event} (hbusy : s.engine = .busy o)
    (he : e = .cycle ∨ ∃ b, e = .bus b) (h : handle e s = .next t) : ∃ p r d, t = s.delayed o p r d := by
  rcases he with rfl | ⟨b, rfl⟩
  · exact ⟨o.progress + 1, s.response, s.draws, (Host.Outcome.next.inj h).symm.trans (passCycle_busy hbusy)⟩
  · obtain ⟨r, d, rfl⟩ := transact_busy b s t o hbusy h
    exact ⟨o.progress, r, d, by simp only [State.delayed, ← hbusy]⟩

theorem runEvents_busy_delays {s u : State} {o : Snapshot} {es : List Event} (hbusy : s.engine = .busy o)
    (hes : ∀ e ∈ es, e = .cycle ∨ ∃ b, e = .bus b) (h : runEvents es s = .next u) : ∃ p r d, u = s.delayed o p r d := by
  induction es generalizing s o with
  | nil =>
    obtain rfl := Host.Outcome.next.inj h
    exact ⟨o.progress, s.response, s.draws, (State.delayed_self hbusy).symm⟩
  | cons e es ih =>
    rw [runEvents] at h
    cases ht : handle e s with
    | fault f => simp [ht] at h
    | refused r => simp [ht] at h
    | next t =>
      obtain ⟨p, r, d, rfl⟩ := handle_busy_delays hbusy (hes e List.mem_cons_self) ht
      rw [ht] at h
      exact ih (s := s.delayed o p r d) (o := { o with progress := p }) rfl (List.forall_mem_of_forall_mem_cons hes) h

/-! ### A delayed command has the outcome it would have had at once -/

/-- Two commands that stop alike, or go on to states that complete alike, have the same outcome. -/
theorem finish_sameOutcome {α : Type} {s u : State} {x : Except Stop α} {f g : α → State}
    (hraise : ∀ e, (s.raiseError e).visible = (u.raiseError e).visible)
    (hok : ∀ a, (f a).complete.visible = (g a).complete.visible) :
    SameOutcome (finish s (x >>= fun a => pure (f a))) (finish u (x >>= fun a => pure (g a))) := by
  rcases x with (e | e) | a
  · exact .inl ⟨_, _, rfl, rfl, hraise e⟩
  · exact .inr ⟨e, rfl, rfl⟩
  · exact .inl ⟨_, _, rfl, rfl, hok a⟩

/-- No host reads the accumulator or the draw counter (log 8). -/
theorem visible_complete_leaveAccumulator (n : Nat) (s : State) :
    (leaveAccumulator n s).complete.visible = s.complete.visible := by
  unfold leaveAccumulator
  split <;> rfl

section
variable {s : State} {o : Snapshot} (hbusy : s.engine = .busy o) (p : Nat) (r : Option BusResponse) (d : Nat)
include hbusy

/-- What every delay of `s` has in common is also what `s` has, which is one of them. -/
theorem eq_of_delays_agree {α : Type} {w : State → α}
    (hw : ∀ p' r' d', w (s.delayed o p r d) = w (s.delayed o p' r' d')) : w (s.delayed o p r d) = w s :=
  (hw _ _ _).trans (congrArg w (State.delayed_self hbusy))

/-- The words of a command read no field that a delay moves. -/
theorem quantizedWords_delayed : quantizedWords (s.delayed o p r d) = quantizedWords s :=
  eq_of_delays_agree hbusy p r d fun _ _ _ => rfl

theorem normalizedWords_delayed : normalizedWords (s.delayed o p r d) = normalizedWords s :=
  eq_of_delays_agree hbusy p r d fun _ _ _ => rfl

theorem convolvedWords_delayed : convolvedWords (s.delayed o p r d) = convolvedWords s :=
  eq_of_delays_agree hbusy p r d fun _ _ _ => rfl

theorem exec_delayed_sameOutcome (i : Instr) : SameOutcome (exec i s) (exec i (s.delayed o p r d)) := by
  cases i with
  | quantize =>
    simp only [exec, execQuantize, quantized, quantizedWords_delayed hbusy]
    exact finish_sameOutcome (fun _ => rfl) fun _ => rfl
  | normalize =>
    simp only [exec, execNormalize, normalized, normalizedWords_delayed hbusy]
    exact finish_sameOutcome (fun _ => rfl) fun _ => rfl
  | convolve =>
    simp only [exec, execConvolve, convolved, convolvedWords_delayed hbusy]
    refine finish_sameOutcome (fun _ => rfl) fun ws => ?_
    rw [visible_complete_leaveAccumulator, visible_complete_leaveAccumulator]
    rfl

theorem runWord_delayed_sameOutcome (v : Word) : SameOutcome (runWord v s) (runWord v (s.delayed o p r d)) := by
  unfold runWord
  cases decode v with
  | ok i => exact exec_delayed_sameOutcome hbusy p r d i
  | error x => exact .inl ⟨_, _, rfl, rfl, rfl⟩

end

/-- Settles O10: the inputs only delay the command, and its words do not depend on what a delay moves. -/
theorem inputsWhileBusyDoNotAffectTheCommand : Obligations.InputsWhileBusyDoNotAffectTheCommand := by
  intro s u o es hbusy hes h
  obtain ⟨p, r, d, rfl⟩ := runEvents_busy_delays hbusy hes h
  rw [engineTurn_busy s o hbusy, engineTurn_busy _ _ rfl]
  exact runWord_delayed_sameOutcome hbusy p r d o.word

end Sys2Proof.Machine
end

section
/-! Family 30_encoding.md: the command words (R110-R113) and the step that runs an accepted one (R111, R112). -/

namespace Sys2Proof

/-- A word is its command's when RSV is 0 and OP is the command's code (30_encoding.md R110). -/
theorem eq_encode_iff (v : Word) (i : Instr) : v = encode i ↔ rsvField v = 0#24 ∧ opField v = opCode i := by
  constructor
  · rintro rfl
    exact ⟨BitVec.extractLsb'_append_eq_left, BitVec.extractLsb'_append_eq_right⟩
  · rintro ⟨hrsv, hop⟩
    calc v = rsvField v ++ opField v := (Machine.append_extract (n := 24) (m := 8) v).symm
      _ = encode i := by rw [hrsv, hop, encode]

theorem decode_eq_ok_iff (v : Word) (i : Instr) : decode v = .ok i ↔ v = encode i := by
  rw [eq_encode_iff]
  unfold decode
  repeat' split
  all_goals cases i <;> simp_all [opCode]

@[simp] theorem decode_encode (i : Instr) : decode (encode i) = .ok i := (decode_eq_ok_iff _ _).mpr rfl

/-- The decoder rejects a word exactly on R112's condition. -/
theorem decode_eq_error_iff (v : Word) :
    (∃ r, decode v = .error r) ↔
      rsvField v ≠ 0#24 ∨ (opField v ≠ 0x01#8 ∧ opField v ≠ 0x02#8 ∧ opField v ≠ 0x03#8) := by
  unfold decode
  repeat' split
  all_goals simp_all

/-- Settles O1: no command has a field that could be ill-formed, and its word decodes to it. -/
theorem decodeGivesBackEncodedCommand : Obligations.DecodeGivesBackEncodedCommand := fun i =>
  ⟨by cases i <;> rfl, decode_encode i⟩

/-- Settles O2: a word decodes to a command exactly when it is that command's word. -/
theorem decodeAcceptsExactlyTheTableWords : Obligations.DecodeAcceptsExactlyTheTableWords :=
  ⟨fun v => ⟨decode_eq_ok_iff v .quantize, decode_eq_ok_iff v .normalize, decode_eq_ok_iff v .convolve⟩,
    decode_eq_error_iff⟩

/-- Settles O3: the three words of the table are the commands' own, and the other four are refused by evaluation. -/
theorem writtenOutWordsDecode : Obligations.WrittenOutWordsDecode :=
  ⟨decode_encode .quantize, decode_encode .normalize, decode_encode .convolve, rfl, rfl, rfl, rfl⟩

namespace Machine

theorem runWord_of_ok {v : Word} {i : Instr} (s : State) (h : decode v = .ok i) : runWord v s = exec i s := by
  rw [runWord, h]

theorem runWord_of_error {v : Word} {r : IllegalWord} (s : State) (h : decode v = .error r) :
    runWord v s = .next (s.raiseError (illegalCommand v)) := by
  rw [runWord, h]

/-- The engine's turn, next in the inputs or because none is left, runs the word of a BUSY engine. -/
theorem step_busy {s : State} {o : Snapshot} {rest : List Event} (hbusy : s.engine = .busy o)
    (hp : s.pending = .engine :: rest ∨ s.pending = [] ∧ rest = []) :
    step s = runWord o.word { s with pending := rest } := by
  rcases hp with hp | ⟨hp, rfl⟩
  · rw [step_of_cons hp]
    exact engineTurn_busy { s with pending := rest } o hbusy
  · rw [step_of_nil hp, engineTurn_busy s o hbusy, ← hp]

/-- Settles O4: either way the turn comes, the accepted word is run, and it decodes to the command. -/
theorem stepRunsTheAcceptedCommand : Obligations.StepRunsTheAcceptedCommand := by
  intro s o i hbusy hd
  refine ⟨fun rest hp => (step_busy hbusy (.inl hp)).trans (runWord_of_ok _ hd), fun hp => ?_⟩
  rw [step_of_nil hp, engineTurn_busy s o hbusy, runWord_of_ok s hd]

theorem withFetchWord_encode (s : State) (i : Instr) :
    s.withFetchWord 32 (encode i).toNat = { s.accept (encode i) with pending := .engine :: s.pending } := by
  rw [State.withFetchWord, tableWord, Nat.mod_eq_of_lt (encode i).isLt, BitVec.ofNat_toNat, BitVec.setWidth_eq]

/-- Settles O5: the placed word is accepted with the engine's turn next, so O4 says what the step runs. -/
theorem fetchedWordRunsNext : Obligations.FetchedWordRunsNext := by
  intro s i
  rw [withFetchWord_encode]
  exact (stepRunsTheAcceptedCommand _ (s.takeSnapshot (encode i)) i rfl (decode_encode i)).1 s.pending rfl

/-- Settles O7: the decoder rejects the word, and the error is recorded on the state of the engine's turn. -/
theorem illegalWordCompletesWithIllegalCommand : Obligations.IllegalWordCompletesWithIllegalCommand := by
  intro s o rest hbusy hp hillegal
  obtain ⟨r, hr⟩ := (decode_eq_error_iff o.word).mpr hillegal
  exact (step_busy hbusy hp).trans (runWord_of_error _ hr)

end Machine

end Sys2Proof
end

section
/-! Family 30_encoding.md: the value of a binary64 pattern (R122). -/

namespace Sys2Proof.Machine

theorem mkRat_two_pow (n : ℤ) (k : ℕ) : mkRat n (2 ^ k) = n * (2 : ℚ) ^ (-(k : ℤ)) := by
  rw [Rat.mkRat_eq_div, zpow_neg, zpow_natCast, div_eq_mul_inv, Nat.cast_pow, Nat.cast_ofNat]

theorem magnitude64_subnormal {b : DWord} (h : exponent64 b = 0) :
    magnitude64 b = fraction64 b * (2 : ℚ) ^ (-1074 : ℤ) := by
  rw [magnitude64, if_pos h, mkRat_two_pow, Int.cast_natCast, Nat.cast_ofNat]

theorem magnitude64_normal {b : DWord} (h : exponent64 b ≠ 0) :
    magnitude64 b = (2 ^ 52 + fraction64 b) * (2 : ℚ) ^ ((exponent64 b : ℤ) - 1075) := by
  rw [magnitude64, if_neg h]
  split
  · next hlt =>
    have hexp : -((1075 - exponent64 b : ℕ) : ℤ) = (exponent64 b : ℤ) - 1075 := by omega
    rw [mkRat_two_pow, hexp]
    push_cast
    rfl
  · next hge =>
    have hexp : ((exponent64 b - 1075 : ℕ) : ℤ) = (exponent64 b : ℤ) - 1075 := by omega
    rw [← hexp, zpow_natCast]
    push_cast
    rfl

/-- The sign bit negates the magnitude (30_encoding.md R122). -/
theorem val64_eq_sign_mul (b : DWord) : val64 b = (-1) ^ (b.extractLsb' 63 1).toNat * magnitude64 b := by
  have hsign : (b.extractLsb' 63 1).toNat = (flag b 63).toNat := by
    rw [flag, BitVec.getLsbD_eq_extractLsb']
    generalize b.extractLsb' 63 1 = x
    revert x
    decide
  rw [hsign, val64]
  cases flag b 63 <;> simp

theorem finite64_iff (b : DWord) : finite64 b = true ↔ exponent64 b ≠ 0x7FF := bne_iff_ne

/-- Settles O44: the sign times the magnitude, by the two cases of the exponent. -/
theorem binary64Values : Obligations.Binary64Values := fun b =>
  ⟨finite64_iff b, fun h => by rw [val64_eq_sign_mul, magnitude64_subnormal h, ← mul_assoc]; rfl,
    fun h _ => by rw [val64_eq_sign_mul, magnitude64_normal h, ← mul_assoc]; rfl⟩

end Sys2Proof.Machine
end

section
/-! Family 30_encoding.md: the ranges of what the commands store (R120, R121). -/

namespace Sys2Proof.Machine

/-! ### A command without error stores its words -/

theorem execQuantize_stores {s t : State} (h : exec .quantize s = .next t) (herr : t.err = false) :
    ∃ ws, quantizedWords s = .ok ws ∧ t.mem = s.mem.writeEntries .coef 0 ws := by
  rcases exec_next_cases _ s t h with ⟨e, rfl, -⟩ | ⟨-, ws, hw, rfl⟩ | ⟨hi, -⟩ | ⟨hi, -⟩
  · simp at herr
  · exact ⟨ws, hw, rfl⟩
  · simp at hi
  · simp at hi

theorem execNormalize_stores {s t : State} (h : exec .normalize s = .next t) (herr : t.err = false) :
    ∃ ws, normalizedWords s = .ok ws ∧ t.mem = s.mem.writeEntries .sample 0 ws := by
  rcases exec_next_cases _ s t h with ⟨e, rfl, -⟩ | ⟨hi, -⟩ | ⟨-, ws, hw, rfl⟩ | ⟨hi, -⟩
  · simp at herr
  · simp at hi
  · exact ⟨ws, hw, rfl⟩
  · simp at hi

theorem execConvolve_stores {s t : State} (h : exec .convolve s = .next t) (herr : t.err = false) :
    ∃ ws, convolvedWords s = .ok ws ∧ t.mem = s.mem.writeEntries .out 0 ws ∧ t.outlen = BitVec.ofNat 32 ws.length := by
  rcases exec_next_cases _ s t h with ⟨e, rfl, -⟩ | ⟨hi, -⟩ | ⟨hi, -⟩ | ⟨-, ws, hw, rfl⟩
  · simp at herr
  · simp at hi
  · simp at hi
  · exact ⟨ws, hw, by simp, by simp⟩

/-- Entry k of a memory holds word k of a run stored from its first entry. -/
theorem Memory.readWord_stored {g : Region} (hg : g.entryBytes = 4) {m m' : Memory} {ws : List Word}
    (h : m' = m.writeEntries g 0 ws) {k : Nat} (hk : k < ws.length) : m'.readWord (g.addr k) = some ws[k] := by
  rw [h, ← Memory.readWord_writeEntries g hg ws 0 m k hk, Nat.zero_add]

/-! ### The range of each stored word -/

theorem quantizeTap_mem (rnd : ℚ → ℤ) {c : Nat} (f : Nat) (b : DWord) (hc : c = 8 ∨ c = 16 ∨ c = 32) :
    coefMin c ≤ (quantizeTap rnd c f b).toInt ∧ (quantizeTap rnd c f b).toInt ≤ coefMax c := by
  have hmem := clamp_mem (rnd (val64 b * (2 ^ f : Nat))) _ _ (coefMin_le_coefMax c)
  rwa [quantizeTap, toInt_ofInt_coef c _ (by omega) (by omega) hmem]

/-- A value clamped to the D-bit samples is stored as one. -/
theorem toNat_clampedSample_le {d : Nat} (v : ℤ) (hd : d ≤ 16) :
    (BitVec.ofInt 32 (clamp v 0 (sampleMax d))).toNat ≤ 2 ^ d - 1 := by
  have hmem := clamp_mem v _ _ (sampleMax_nonneg d)
  rw [← le_sampleMax, toNat_ofInt_sample d _ hd hmem]
  exact hmem.2

theorem normalizeSample_le (z : Bool) {d : Nat} (b : DWord) (hd : d ≤ 16) :
    (normalizeSample z d b).toNat ≤ 2 ^ d - 1 := toNat_clampedSample_le _ hd

theorem outputWord_le {o : Snapshot} (q x : List ℤ) (n : Nat) (hd : o.dataBits ≤ 16) :
    (outputWord o q x n).toNat ≤ 2 ^ o.dataBits - 1 := toNat_clampedSample_le _ hd

/-- Settles O56: COEF[k] holds the k-th tap clamped to the C-bit range. -/
theorem quantizedCoefficientsAreInRange : Obligations.QuantizedCoefficientsAreInRange := by
  intro s t _ h herr k hk
  obtain ⟨ws, hw, hm⟩ := execQuantize_stores h herr
  obtain ⟨rnd, taps, hl, -, hn, -, -, rfl⟩ := (quantizedWords_eq_ok s ws).mp hw
  refine ⟨_, Memory.readWord_stored (g := .coef) rfl hm (by rwa [List.length_map, hn]), ?_⟩
  rw [List.getElem_map]
  exact quantizeTap_mem rnd _ _ hl.coeff

/-- Settles O57: SAMPLE[i] and OUT[m] hold values clamped to the D-bit samples, and OUTLEN counts the outputs. -/
theorem writtenSamplesAndOutputsFitDataBits : Obligations.WrittenSamplesAndOutputsFitDataBits := by
  refine ⟨fun s t _ h herr i hi => ?_, fun s t _ h herr m hm => ?_⟩
  · obtain ⟨ws, hw, hmem⟩ := execNormalize_stores h herr
    obtain ⟨raw, hl, hn, -, rfl⟩ := (normalizedWords_eq_ok s ws).mp hw
    refine ⟨_, Memory.readWord_stored (g := .sample) rfl hmem (by rwa [List.length_map, hn]), ?_⟩
    rw [List.getElem_map]
    exact normalizeSample_le _ _ hl.data.2
  · obtain ⟨ws, hw, hmem, hout⟩ := execConvolve_stores h herr
    have hlt : m < ws.length := hm.trans_le (hout ▸ Nat.mod_le _ _)
    refine ⟨_, Memory.readWord_stored (g := .out) rfl hmem hlt, ?_⟩
    obtain ⟨q, x, hl, -, -, -, -, rfl⟩ := (convolvedWords_eq_ok s ws).mp hw
    rw [List.getElem_map]
    exact outputWord_le _ _ _ hl.data.2

end Sys2Proof.Machine
end

section
/-! Family 30_encoding.md: the host's scripts WR64, SETCFG, SETMODE and a command's write (R116). -/

namespace Sys2Proof.Machine

@[simp] theorem runScript_nil (s : State) : runScript [] s = .next s := rfl

/-- A script whose first transaction goes on is the rest of it on the state that leaves. -/
theorem runScript_cons {x : Transaction} {xs : List Transaction} {s u : State} (h : transact x s = .next u) :
    runScript (x :: xs) s = runScript xs u := by
  simp only [runScript, List.map_cons, runEvents, handle, h]

/-! ### WR64 -/

/-- While IDLE a word written to a memory other than OUT is stored (20_memory.md R85). -/
theorem transact_writeWordAt_mem {s : State} {off : BitVec 17} {g : Region} (v : Word) (hb : s.LegalBuild)
    (hidle : s.engine = .idle) (hg : g ≠ .out) (h4 : off.toNat % 4 = 0)
    (hc : g.covers s.nmax s.lmax off.toNat = true) :
    transact (writeWordAt off v) s = .next { s with mem := s.mem.writeWord off.toNat v, response := some .ok } := by
  have hp := (placeAt_mem_iff _ _ _ _ hb.nmaxLe hb.lmaxLe).mpr hc
  rw [transact_writeWordAt_idle v hidle h4 hp, writePlace, writeMem_of_ne_out off v s hg, State.respond]

/-- A 64-bit entry stored by its two halves, low word first (20_memory.md R82). -/
def Memory.writeDWord (m : Memory) (a : Nat) (b : DWord) : Memory :=
  (m.writeWord a (b.extractLsb' 0 32)).writeWord (a + 4) (b.extractLsb' 32 32)

theorem Memory.readDWord_writeDWord (m : Memory) (a : Nat) (b : DWord) : (m.writeDWord a b).readDWord a = some b := by
  rw [Memory.writeDWord, wordsAndHalvesAreLittleEndian.2.1, append_extract (n := 32) (m := 32)]

theorem Memory.read_writeDWord_outside (m : Memory) {a c : Nat} (b : DWord) (h : c < a ∨ a + 8 ≤ c) :
    (m.writeDWord a b).read c = m.read c := by
  rw [Memory.writeDWord, Memory.read_writeWord_outside _ _ _ _ (by omega),
    Memory.read_writeWord_outside _ _ _ _ (by omega)]

/-- In a legal build the two words of a mapped 64-bit entry lie in its memory, inside the window. -/
theorem Region.covers_wide_entry {nmax lmax i : Nat} {g : Region} (hn : nmax ≤ 4096) (hl : lmax ≤ 512)
    (hg : g.entryBytes = 8) (hi : i < g.entries nmax lmax) :
    g.addr i % 4 = 0 ∧ g.addr i + 4 < 2 ^ 17 ∧ g.covers nmax lmax (g.addr i) = true ∧
      g.covers nmax lmax (g.addr i + 4) = true := by
  simp only [covers_iff, Region.addr, hg]
  cases g with
  | coef | sample | out => simp [Region.entryBytes] at hg
  | rawTap | rawSample =>
    simp only [Region.base, Region.entries] at hi ⊢
    omega

/-- WR64 at a mapped 64-bit entry stores it (30_encoding.md R116). -/
theorem runScript_wr64 {s : State} {g : Region} {i : Nat} (b : DWord) (hb : s.LegalBuild) (hidle : s.engine = .idle)
    (hg : g.entryBytes = 8) (hi : i < g.entries s.nmax s.lmax) :
    runScript (wr64 (BitVec.ofNat 17 (g.addr i)) b) s =
      .next { s with mem := s.mem.writeDWord (g.addr i) b, response := some .ok } := by
  obtain ⟨h4, hlt, hlo, hhi⟩ := Region.covers_wide_entry hb.nmaxLe hb.lmaxLe hg hi
  have hout : g ≠ .out := fun h => absurd (h ▸ hg) (by decide)
  have hoff : (BitVec.ofNat 17 (g.addr i)).toNat = g.addr i := Nat.mod_eq_of_lt (by omega)
  have hoff4 : (BitVec.ofNat 17 (g.addr i) + 4#17).toNat = g.addr i + 4 := by
    rw [BitVec.toNat_add, hoff]
    exact Nat.mod_eq_of_lt hlt
  refine (runScript_cons (transact_writeWordAt_mem _ hb hidle hout (by omega) (by rwa [hoff]))).trans <|
    (runScript_cons (transact_writeWordAt_mem _ ?_ ?_ hout (by omega) (hoff4 ▸ hhi))).trans ?_
  · exact hb.congr rfl
  · exact hidle
  · rw [hoff, hoff4, runScript_nil, Memory.writeDWord]

/-- Settles O58: both memories of 64-bit entries take the two words of an entry. -/
theorem scriptWr64StoresTheEntry : Obligations.ScriptWr64StoresTheEntry := by
  intro s i b hb hidle
  exact ⟨fun hi => ⟨_, runScript_wr64 (g := .rawTap) b hb hidle rfl hi, s.mem.readDWord_writeDWord _ b,
      fun _ => s.mem.read_writeDWord_outside b⟩,
    fun hi => ⟨_, runScript_wr64 (g := .rawSample) b hb hidle rfl hi, s.mem.readDWord_writeDWord _ b,
      fun _ => s.mem.read_writeDWord_outside b⟩⟩

/-! ### SETCFG, SETMODE and a command's write -/

/-- While IDLE a word written to a register is that register's own write (20_memory.md R85). -/
theorem transact_writeWordAt_reg {s : State} {off : BitVec 17} {r : Reg} (v : Word) (hidle : s.engine = .idle)
    (h4 : off.toNat % 4 = 0) (hr : regAt off.toNat = some r) :
    transact (writeWordAt off v) s = .next ((writeReg v s r).respond .ok) :=
  transact_writeWordAt_idle v hidle h4 ((placeAt_reg_iff _ _ _ _).mpr hr)

section
variable {n m : Nat} (x : BitVec n) (y : BitVec m)

/-- A field of two words, one above the other, is a field of the one it lies in. -/
theorem field_append_low {lo len : Nat} (h : lo + len ≤ m) : field (x ++ y) lo len = field y lo len :=
  congrArg BitVec.toNat (BitVec.extractLsb'_append_eq_of_add_le h)

theorem field_append_high {lo : Nat} (len : Nat) (h : m ≤ lo) : field (x ++ y) lo len = field x (lo - m) len :=
  congrArg BitVec.toNat (BitVec.extractLsb'_append_eq_of_le h)

theorem field_whole : field y 0 m = y.toNat := congrArg BitVec.toNat BitVec.extractLsb'_eq_self

theorem flag_append_high {i : Nat} (h : m ≤ i) : flag (x ++ y) i = flag x (i - m) := by
  rw [flag, BitVec.getLsbD_append, if_neg (by omega), flag]

theorem flag_append_ofBool (b : Bool) : flag (x ++ BitVec.ofBool b) 0 = b := by
  rw [flag, BitVec.getLsbD_append, if_pos Nat.one_pos]
  cases b <;> rfl

end

/-- CFG0 as SETCFG writes it (10_state.md R37). -/
def cfg0Word (d f a c : BitVec 8) : Word := c ++ a ++ f ++ d

/-- CFG1 as SETMODE writes it (10_state.md R38). -/
def cfg1Word (mode strict : Bool) (qround : BitVec 2) (sfmt : Bool) : Word :=
  0#27 ++ BitVec.ofBool sfmt ++ qround ++ BitVec.ofBool strict ++ BitVec.ofBool mode

theorem setCfg_eq (d f a c : BitVec 8) : setCfg d f a c = [writeWordAt 0x010#17 (cfg0Word d f a c)] := rfl

theorem setMode_eq (mode strict : Bool) (qround : BitVec 2) (sfmt : Bool) :
    setMode mode strict qround sfmt = [writeWordAt 0x014#17 (cfg1Word mode strict qround sfmt)] := rfl

theorem cfg0Word_fields (d f a c : BitVec 8) :
    field (cfg0Word d f a c) 0 8 = d.toNat ∧ field (cfg0Word d f a c) 8 8 = f.toNat ∧
      field (cfg0Word d f a c) 16 8 = a.toNat ∧ field (cfg0Word d f a c) 24 8 = c.toNat := by
  simp (disch := decide) only [cfg0Word, field_append_high, field_append_low, field_whole, Nat.reduceSub,
    and_self]

theorem cfg1Word_fields (mode strict : Bool) (qround : BitVec 2) (sfmt : Bool) :
    flag (cfg1Word mode strict qround sfmt) 0 = mode ∧ flag (cfg1Word mode strict qround sfmt) 1 = strict ∧
      field (cfg1Word mode strict qround sfmt) 2 2 = qround.toNat ∧ flag (cfg1Word mode strict qround sfmt) 4 = sfmt := by
  simp (disch := decide) only [cfg1Word, field_append_high, field_append_low, field_whole, flag_append_high,
    flag_append_ofBool, Nat.reduceSub, and_self]

/-- SETMODE writes no reserved bit, so CFG1 takes its word as it is (10_state.md R44). -/
theorem cfg1Word_masked (mode strict : Bool) (qround : BitVec 2) (sfmt : Bool) :
    cfg1Word mode strict qround sfmt &&& 0x1F#32 = cfg1Word mode strict qround sfmt := by
  have hres : (cfg1Word mode strict qround sfmt).extractLsb' 5 27 = 0#27 := by
    simp (disch := decide) only [cfg1Word, BitVec.extractLsb'_append_eq_of_le]
    rfl
  obtain ⟨hlow, hhigh, -, -⟩ := write_masks (cfg1Word mode strict qround sfmt)
  rw [← append_extract (n := 27) (m := 5) (_ &&& _), hlow, hhigh, ← hres]
  exact append_extract (n := 27) (m := 5) _

/-- The three writes one after another: the operand registers, then the acceptance. -/
theorem runScript_operands {s : State} (d f a c : BitVec 8) (mode strict : Bool) (qround : BitVec 2) (sfmt : Bool)
    (i : Instr) (hidle : s.engine = .idle) :
    runScript (setCfg d f a c ++ setMode mode strict qround sfmt ++ startCommand i) s =
      .next (State.accept (encode i)
        { s with cfg0 := cfg0Word d f a c, cfg1 := cfg1Word mode strict qround sfmt, response := some .ok }) := by
  rw [setCfg_eq, setMode_eq, startCommand]
  refine (runScript_cons (transact_writeWordAt_reg (r := .cfg0) _ hidle rfl rfl)).trans <|
    (runScript_cons (transact_writeWordAt_reg (r := .cfg1) _ ?_ rfl rfl)).trans <|
    (runScript_cons (transact_writeWordAt_reg (r := .cmd) _ ?_ rfl rfl)).trans ?_
  · exact hidle
  · exact hidle
  · simp only [writeReg, cfg1Word_masked]
    rfl

/-- Settles O59: the accepted command's snapshot holds the two words written, and each operand is a field of its word. -/
theorem scriptSetsTheOperands : Obligations.ScriptSetsTheOperands := by
  intro s d f a c mode strict qround sfmt i hidle
  obtain ⟨hd, hf, ha, hc⟩ := cfg0Word_fields d f a c
  obtain ⟨hmode, hstrict, hqround, hsfmt⟩ := cfg1Word_fields mode strict qround sfmt
  exact ⟨_, runScript_operands d f a c mode strict qround sfmt i hidle, rfl, decode_encode i, hd, hf, ha, hc, hmode,
    hstrict, hqround, hsfmt, rfl, rfl, rfl⟩

end Sys2Proof.Machine
end

section
/-! Family 40_quantize.md: how the three roundings of QROUND agree and differ (R143), and what an accepted tap is stored
as (R141, R144, R148). -/

namespace Sys2Proof.Machine

/-! ### Every selected rounding gives a nearest integer -/

theorem rndHalfUp_eq_round (v : ℚ) : rndHalfUp v = round v := (round_eq v).symm

theorem abs_sub_rndHalfUp_le (v : ℚ) : |v - rndHalfUp v| ≤ 1 / 2 := by
  rw [rndHalfUp_eq_round]
  exact abs_sub_round v

/-- Below zero, half away is half up of the opposite. -/
theorem abs_sub_rndHalfAway_le (v : ℚ) : |v - rndHalfAway v| ≤ 1 / 2 := by
  obtain h | rfl | h := lt_trichotomy v 0
  · rw [rndHalfAway_of_neg v h, ← rndHalfUp_eq, Int.cast_neg, sub_neg_eq_add, ← abs_neg, neg_add']
    exact abs_sub_rndHalfUp_le (-v)
  · norm_num
  · rw [rndHalfAway_of_pos v h]
    exact abs_sub_rndHalfUp_le v

/-- The legal QROUND values and what each selects (40_quantize.md R143). -/
theorem roundingOf_eq_some {q : Nat} {rnd : ℚ → ℤ} (h : roundingOf q = some rnd) :
    q = 0 ∧ rnd = rndHalfAway ∨ q = 1 ∧ rnd = rndHalfEven ∨ q = 2 ∧ rnd = rndHalfUp := by
  match q, h with
  | 0, h => exact .inl ⟨rfl, (Option.some.inj h).symm⟩
  | 1, h => exact .inr (.inl ⟨rfl, (Option.some.inj h).symm⟩)
  | 2, h => exact .inr (.inr ⟨rfl, (Option.some.inj h).symm⟩)

section
variable {q : Nat} {rnd : ℚ → ℤ} (hq : roundingOf q = some rnd)
include hq

theorem abs_sub_rounding_le (v : ℚ) : |v - rnd v| ≤ 1 / 2 := by
  obtain ⟨-, rfl⟩ | ⟨-, rfl⟩ | ⟨-, rfl⟩ := roundingOf_eq_some hq
  · exact abs_sub_rndHalfAway_le v
  · exact abs_sub_rndHalfEven_le v
  · exact abs_sub_rndHalfUp_le v

/-- The selected rounding meets the spec's formula for its QROUND. -/
theorem isRounded_rounding (v : ℚ) : IsRounded q v (rnd v) := by
  obtain ⟨rfl, rfl⟩ | ⟨rfl, rfl⟩ | ⟨rfl, rfl⟩ := roundingOf_eq_some hq
  · exact ⟨fun _ => rndHalfAway_eq_sign_mul v, by simp, by simp, by simp⟩
  · exact ⟨by simp, fun _ => ⟨abs_sub_rndHalfEven_le v, even_rndHalfEven v⟩, by simp, by simp⟩
  · exact ⟨by simp, by simp, fun _ => rndHalfUp_eq v, by simp⟩

/-- A nearest integer does not leave an interval with integer ends. -/
theorem rounding_mem_of_mem {v : ℚ} {lo hi : ℤ} (hlo : (lo : ℚ) ≤ v) (hhi : v ≤ hi) : lo ≤ rnd v ∧ rnd v ≤ hi := by
  obtain ⟨hbelow, habove⟩ := abs_le.mp (abs_sub_rounding_le hq v)
  have hlo' : (lo : ℚ) < rnd v + 1 := by linarith
  have hhi' : (rnd v : ℚ) < hi + 1 := by linarith
  exact ⟨Int.lt_add_one_iff.mp (by exact_mod_cast hlo'), Int.lt_add_one_iff.mp (by exact_mod_cast hhi')⟩

end

/-! ### Ties -/

/-- Only a tie m + 1/2 has two nearest integers. -/
theorem nearest_unique {v : ℚ} (hv : ∀ m : ℤ, v ≠ m + 1 / 2) {a b : ℤ} (ha : |v - a| ≤ 1 / 2) (hb : |v - b| ≤ 1 / 2) :
    a = b := by
  obtain ⟨ha₁, ha₂⟩ := abs_le.mp ha
  obtain ⟨hb₁, hb₂⟩ := abs_le.mp hb
  by_contra hne
  obtain h | h := lt_or_gt_of_ne hne
  · have : (a : ℚ) + 1 ≤ b := by exact_mod_cast h
    exact hv a (by linarith)
  · have : (b : ℚ) + 1 ≤ a := by exact_mod_cast h
    exact hv b (by linarith)

theorem floor_intCast_add_half (m : ℤ) : ⌊(m : ℚ) + 1 / 2⌋ = m := by
  rw [Int.floor_intCast_add]; norm_num

theorem rndHalfUp_intCast_add_half (m : ℤ) : rndHalfUp ((m : ℚ) + 1 / 2) = m + 1 := by
  rw [rndHalfUp_eq, add_assoc, add_halves, Int.floor_add_one, Int.floor_intCast]

theorem rndHalfAway_intCast_add_half (m : ℤ) : rndHalfAway ((m : ℚ) + 1 / 2) = if 0 ≤ m then m + 1 else m := by
  split
  · next h =>
    have h' : (0 : ℚ) ≤ m := by exact_mod_cast h
    rw [rndHalfAway_of_pos _ (by linarith)]
    exact rndHalfUp_intCast_add_half m
  · next h =>
    have h' : (m : ℚ) + 1 ≤ 0 := by exact_mod_cast not_le.mp h
    rw [rndHalfAway_of_neg _ (by linarith), neg_add, neg_add_cancel_right, ← Int.cast_neg, Int.floor_intCast, neg_neg]

theorem rndHalfEven_intCast_add_half (m : ℤ) : rndHalfEven ((m : ℚ) + 1 / 2) = if Even m then m else m + 1 := by
  rw [rndHalfEven_tie _ (by rw [floor_intCast_add_half, add_sub_cancel_left]), floor_intCast_add_half]
  simp only [Int.even_iff]

/-- Settles O46: each mode gives a nearest integer, which is unique off the ties. -/
theorem roundingModesDifferOnlyAtTies : Obligations.RoundingModesDifferOnlyAtTies :=
  ⟨rfl, rfl, rfl, rfl,
    fun v hv => ⟨nearest_unique hv (abs_sub_rndHalfAway_le v) (abs_sub_rndHalfUp_le v),
      nearest_unique hv (abs_sub_rndHalfEven_le v) (abs_sub_rndHalfUp_le v)⟩,
    fun m => ⟨rndHalfAway_intCast_add_half m, rndHalfUp_intCast_add_half m, rndHalfEven_intCast_add_half m⟩⟩

/-! ### Accepted taps -/

/-- The strict range, scaled by 2^F, is the C-bit range (40_quantize.md R141). -/
theorem tapAccepted_iff_scaled (c f : Nat) (b : DWord) :
    TapAccepted c f b ↔ (coefMin c : ℚ) ≤ val64 b * 2 ^ f ∧ val64 b * 2 ^ f ≤ (coefMax c : ℚ) := by
  have hpos : (0 : ℚ) < 2 ^ f := by positivity
  rw [TapAccepted, div_le_iff₀ hpos, le_div_iff₀ hpos]
  simp [coefMin, coefMax]

section
variable {q c f : Nat} {rnd : ℚ → ℤ} {b : DWord} (hq : roundingOf q = some rnd) (ht : TapAccepted c f b)
include hq ht

theorem rounded_accepted_mem : coefMin c ≤ rnd (val64 b * 2 ^ f) ∧ rnd (val64 b * 2 ^ f) ≤ coefMax c := by
  obtain ⟨hlo, hhi⟩ := (tapAccepted_iff_scaled c f b).mp ht
  exact rounding_mem_of_mem hq hlo hhi

theorem clamp_rounded_accepted :
    clamp (rnd (val64 b * 2 ^ f)) (coefMin c) (coefMax c) = rnd (val64 b * 2 ^ f) :=
  clamp_of_mem _ _ _ (rounded_accepted_mem hq ht)

theorem toInt_quantizeTap_accepted (hc : c = 8 ∨ c = 16 ∨ c = 32) :
    (quantizeTap rnd c f b).toInt = rnd (val64 b * 2 ^ f) := by
  rw [quantizeTap, Nat.cast_pow, Nat.cast_ofNat, clamp_rounded_accepted hq ht]
  exact toInt_ofInt_coef c _ (by omega) (by omega) (rounded_accepted_mem hq ht)

end

/-- Settles O48: a nearest integer of a value in the C-bit range is in that range. -/
theorem clampIsInactiveOnAcceptedTaps : Obligations.ClampIsInactiveOnAcceptedTaps := fun _ _ _ _ _ hq hc ht =>
  ⟨clamp_rounded_accepted hq ht, toInt_quantizeTap_accepted hq ht hc⟩

/-- Settles O47: the rounding errs by at most 1/2 on the tap times 2^F. -/
theorem quantizationErrorBound : Obligations.QuantizationErrorBound := by
  intro q c f rnd b hq hc ht
  have hpos : (0 : ℚ) < 2 ^ f := by positivity
  rw [toInt_quantizeTap_accepted hq ht hc]
  calc |val64 b - (rnd (val64 b * 2 ^ f) : ℚ) / 2 ^ f|
      = |val64 b * 2 ^ f - rnd (val64 b * 2 ^ f)| / 2 ^ f := by
        rw [← abs_of_pos hpos, ← abs_div, abs_of_pos hpos, sub_div, mul_div_cancel_right₀ _ hpos.ne']
    _ ≤ 1 / 2 / 2 ^ f := by gcongr; exact abs_sub_rounding_le hq _
    _ = 1 / 2 ^ f / 2 := div_right_comm _ _ _

end Sys2Proof.Machine
end

section
/-! Family 40_quantize.md: how QUANTIZE ends, in an error (R140, R141) or with its rounded taps stored (R142-R146). -/

namespace Sys2Proof.Machine

/-! ### Configuration errors -/

theorem execQuantize_of_config_raise {s : State} {code : ErrorCode} {idx : Nat} {val : DWord}
    (h : quantizeConfig s.operands s.lmax = .error (.raise ⟨code, idx, val⟩)) :
    exec .quantize s = .next (s.withError code idx val) :=
  execQuantize_of_raise s code idx val (by rw [quantizedWords, h, except_error_bind])

/-- QROUND 3 is reserved (40_quantize.md R143). -/
theorem checkRounding_fails (q : Nat) (h : q = 3) :
    checkRounding q = .error (.raise { code := .invalidConfig, idx := 0, val := 3#64 }) := by
  subst h; rfl

/-- A QROUND that is not reserved passes its check. -/
theorem checkRounding_ok {o : Snapshot} (h : o.qround ≠ 3) : ∃ rnd, checkRounding o.qround = .ok rnd := by
  obtain ⟨rnd, hr⟩ := rounding_of_legal _ (BitVec.extractLsb' 2 2 o.cfg1).isLt h
  exact ⟨rnd, (checkRounding_eq_ok _ rnd).mpr hr⟩

/-- Settles O26: the checks before the failing one pass, and that one raises its error. -/
theorem quantizeConfigurationErrors : Obligations.QuantizeConfigurationErrors := by
  intro s
  refine ⟨fun hf => ?_, fun hf hc => ?_, fun hf hc hq => ?_, fun hf hc hq hn => ?_, fun hf hc hq hn hl => ?_⟩ <;>
    apply execQuantize_of_config_raise
  · simp only [quantizeConfig, checkFracBits_fails _ hf, except_error_bind]
  · simp only [quantizeConfig, (checkFracBits_eq_ok _ ()).mpr hf, checkCoeffBits_fails _ hc, except_ok_bind,
      except_error_bind]
  · simp only [quantizeConfig, (checkFracBits_eq_ok _ ()).mpr hf, (checkCoeffBits_eq_ok _ ()).mpr hc,
      checkRounding_fails _ hq, except_ok_bind, except_error_bind]
  · obtain ⟨rnd, hr⟩ := checkRounding_ok hq
    simp only [quantizeConfig, (checkFracBits_eq_ok _ ()).mpr hf, (checkCoeffBits_eq_ok _ ()).mpr hc, hr,
      checkNotEmpty_fails _ hn, except_ok_bind, except_error_bind]
  · obtain ⟨rnd, hr⟩ := checkRounding_ok hq
    simp only [quantizeConfig, (checkFracBits_eq_ok _ ()).mpr hf, (checkCoeffBits_eq_ok _ ()).mpr hc, hr,
      (checkNotEmpty_eq_ok _ ()).mpr (Nat.pos_of_ne_zero hn), checkTapCount_fails _ _ hl, except_ok_bind,
      except_error_bind]

/-! ### Errors found in a tap -/

/-- An entry holds one pattern. -/
theorem State.rawTapIs_unique {s : State} {k : Nat} {b c : DWord} (hb : s.rawTapIs k b) (hc : s.rawTapIs k c) : b = c :=
  Option.some.inj (hb.symm.trans hc)

/-- Settles O29: pass 1 stops at the tap, after finite ones, before STRICT is looked at. -/
theorem quantizeReportsTheLowestNonFiniteTap : Obligations.QuantizeReportsTheLowestNonFiniteTap := by
  intro s k b hl hk hpre hb hfin
  have hscan : scan (finiteTap s) 0 s.operands.tapCount =
      .error (.raise { code := .nonFiniteCoefficient, idx := k, val := b }) :=
    scan_stops_at hk (fun j hj => (hpre j hj).imp fun c hc => (finiteTap_eq_ok s j c).mpr hc)
      ((finiteTap_eq_error s k _).mpr (.inr ⟨b, hb, hfin, rfl⟩))
  obtain ⟨rnd, -, hw⟩ := quantizedWords_of_legal s hl
  exact execQuantize_of_raise s _ _ _ (by rw [hw, hscan, except_error_bind])

/-- Pass 1 collects the taps where every one is written and finite (40_quantize.md R140). -/
theorem scan_finiteTap_ok {s : State} (h : ∀ k < s.operands.tapCount, ∃ b, s.rawTapIs k b ∧ finite64 b = true) :
    ∃ taps, scan (finiteTap s) 0 s.operands.tapCount = .ok taps :=
  scan_of_all _ _ fun k hk => (h k hk).imp fun b hb => (finiteTap_eq_ok s k b).mpr hb

/-- Settles O30: pass 1 goes through, and pass 2 stops at the tap, after taps in range. -/
theorem quantizeReportsTheLowestTapOutOfRange : Obligations.QuantizeReportsTheLowestTapOutOfRange := by
  intro s k b hl hstrict hk hall hpre hb hout
  obtain ⟨taps, htaps⟩ := scan_finiteTap_ok hall
  have hscan : scan (rangedTap s.operands.coeffBits s.operands.fracBits s) 0 s.operands.tapCount =
      .error (.raise { code := .coefficientOutOfRange, idx := k, val := b }) := by
    refine scan_stops_at hk (fun j hj => ?_) ((rangedTap_eq_error _ _ s k _).mpr (.inr ⟨b, hb, ?_, rfl⟩))
    · obtain ⟨c, hc, -⟩ := hall j (hj.trans hk)
      exact ⟨(), (rangedTap_eq_ok _ _ s j ()).mpr ⟨c, hc, (tapInRange_iff _ _ c).mpr (hpre j hj c hc)⟩⟩
    · rwa [← tapInRange_iff, Bool.not_eq_true] at hout
  obtain ⟨rnd, -, hw⟩ := quantizedWords_of_legal s hl
  exact execQuantize_of_raise s _ _ _
    (by rw [hw, htaps, except_ok_bind, if_pos hstrict, hscan, except_error_bind])

/-! ### Completion -/

/-- With legal fields and every tap acceptable, QUANTIZE has the taps' words to store. -/
theorem quantizedWords_ok {s : State} (hl : s.QuantizeLegal)
    (h : ∀ k < s.operands.tapCount, ∃ b, s.rawTapIs k b ∧ finite64 b = true ∧
      (s.operands.strict = true → TapAccepted s.operands.coeffBits s.operands.fracBits b)) :
    ∃ ws, quantizedWords s = .ok ws := by
  obtain ⟨rnd, hr⟩ := rounding_of_legal _ (BitVec.extractLsb' 2 2 s.operands.cfg1).isLt hl.rounding
  obtain ⟨taps, hscan⟩ := scan_finiteTap_ok fun k hk => (h k hk).imp fun b hb => ⟨hb.1, hb.2.1⟩
  obtain ⟨hn, hstep⟩ := (scan_eq_ok _ _ _ _).mp hscan
  have htap : ∀ k (hk : k < taps.length), s.rawTapIs k taps[k] ∧ finite64 taps[k] = true := fun k hk =>
    (finiteTap_eq_ok s k _).mp (by rw [← hstep k hk, Nat.zero_add])
  refine ⟨_, (quantizedWords_eq_ok s _).mpr ⟨rnd, taps, hl, hr, hn, htap, fun hs k hk => ?_, rfl⟩⟩
  obtain ⟨b, hb, -, hacc⟩ := h k (hn ▸ hk)
  rw [State.rawTapIs_unique (htap k hk).1 hb]
  exact (tapInRange_iff _ _ b).mpr (hacc hs)

/-- What a word QUANTIZE stores is, said with the tap it comes from (40_quantize.md R142-R144). -/
theorem quantizedWords_getElem {s : State} {ws : List Word} (hw : quantizedWords s = .ok ws) {k : Nat}
    (hk : k < ws.length) {b : DWord} (hb : s.rawTapIs k b) :
    ∃ rnd, roundingOf s.operands.qround = some rnd ∧
      ws[k] = quantizeTap rnd s.operands.coeffBits s.operands.fracBits b := by
  obtain ⟨rnd, taps, -, hr, -, htap, -, rfl⟩ := (quantizedWords_eq_ok s ws).mp hw
  rw [List.length_map] at hk
  exact ⟨rnd, hr, by rw [List.getElem_map, State.rawTapIs_unique (htap k hk).1 hb]⟩

theorem quantizedWords_length_eq {s : State} {ws : List Word} (hw : quantizedWords s = .ok ws) :
    ws.length = s.operands.tapCount := by
  obtain ⟨_, taps, -, -, hn, -, -, rfl⟩ := (quantizedWords_eq_ok s ws).mp hw
  rw [List.length_map, hn]

/-- A run of n entries stored from a memory's first leaves every byte outside them. -/
theorem Memory.read_stored_outside {g : Region} (hg : g.entryBytes = 4) {ws : List Word} {n : Nat} (hn : ws.length = n)
    (m : Memory) {a : Nat} (ha : a < g.base ∨ g.base + 4 * n ≤ a) : (m.writeEntries g 0 ws).read a = m.read a := by
  refine Memory.read_writeEntries_outside g hg ws 0 m a ?_
  rwa [Nat.zero_add, hn, Region.addr, Region.addr, hg]

/-- Settles O23: the words stored are the taps quantized by the rounding that QROUND selects. -/
theorem quantizeStoresRoundedTaps : Obligations.QuantizeStoresRoundedTaps := by
  intro s hl h
  obtain ⟨ws, hw⟩ := quantizedWords_ok hl h
  have hn := quantizedWords_length_eq hw
  refine ⟨_, execQuantize_of_ok s ws hw, fun k hk b hb => ?_, fun a ha => ?_⟩
  · obtain ⟨rnd, hr, hword⟩ := quantizedWords_getElem hw (hn ▸ hk) hb
    refine ⟨_, isRounded_rounding hr _, (Memory.readWord_stored (g := .coef) rfl rfl (hn ▸ hk)).trans ?_⟩
    rw [hword, quantizeTap, Nat.cast_pow, Nat.cast_ofNat, coefMin, coefMax]
  · exact Memory.read_stored_outside (g := .coef) rfl hn s.mem ha

end Sys2Proof.Machine
end

section
/-! Family 40_quantize.md: what a command leaves alone (R146) and what its result depends on (R145, R174, R210). -/

namespace Sys2Proof.Machine

/-! ### The frame of the commands -/

theorem normalizedWords_length_eq {s : State} {ws : List Word} (hw : normalizedWords s = .ok ws) :
    ws.length = s.operands.sampleCount := by
  obtain ⟨raw, -, hn, -, rfl⟩ := (normalizedWords_eq_ok s ws).mp hw
  rw [List.length_map, hn]

theorem convolvedWords_length_eq {s : State} {ws : List Word} (hw : convolvedWords s = .ok ws) :
    ws.length = outputCount s.operands.linear s.operands.sampleCount s.operands.tapCount := by
  obtain ⟨_, _, -, -, -, -, -, rfl⟩ := (convolvedWords_eq_ok s ws).mp hw
  rw [List.length_map, List.length_range]

/-- A CONVOLVE leaves some accumulator and some draw counter, and no other field moves with them (log 8). -/
theorem leaveAccumulator_eq (n : Nat) (s : State) :
    ∃ acc draws, leaveAccumulator n s = { s with acc := acc, draws := draws } := by
  unfold leaveAccumulator
  split
  · exact ⟨s.acc, s.draws, rfl⟩
  · exact ⟨_, _, rfl⟩

/-- Settles O36, by how the command ended: an error stores nothing, and a success stores its words. -/
theorem commandsChangeOnlyTheirDestination : Obligations.CommandsChangeOnlyTheirDestination := by
  intro i s t h
  rcases exec_next_cases i s t h with ⟨e, rfl, -, -⟩ | ⟨rfl, ws, hw, rfl⟩ | ⟨rfl, ws, hw, rfl⟩ | ⟨rfl, ws, hw, rfl⟩
  · exact ⟨rfl, rfl, rfl, rfl, rfl, rfl, rfl, rfl, rfl, fun _ => ⟨rfl, rfl, rfl⟩, .inr ⟨rfl, rfl, rfl, rfl, rfl⟩,
      fun _ _ _ => rfl, fun _ _ _ => rfl, fun _ _ _ => rfl⟩
  · exact ⟨rfl, rfl, rfl, rfl, rfl, rfl, rfl, rfl, rfl, fun _ => ⟨rfl, rfl, rfl⟩, .inl ⟨rfl, rfl, rfl, rfl⟩,
      fun _ _ => Memory.read_stored_outside (g := .coef) rfl (quantizedWords_length_eq hw) s.mem, nofun, nofun⟩
  · exact ⟨rfl, rfl, rfl, rfl, rfl, rfl, rfl, rfl, rfl, fun _ => ⟨rfl, rfl, rfl⟩, .inl ⟨rfl, rfl, rfl, rfl⟩,
      nofun, fun _ _ => Memory.read_stored_outside (g := .sample) rfl (normalizedWords_length_eq hw) s.mem, nofun⟩
  · obtain ⟨acc, draws, hleave⟩ := leaveAccumulator_eq ws.length
      { s with mem := s.mem.writeEntries .out 0 ws, outlen := BitVec.ofNat 32 ws.length }
    rw [hleave]
    exact ⟨rfl, rfl, rfl, rfl, rfl, rfl, rfl, rfl, rfl, fun hne => absurd rfl hne, .inl ⟨rfl, rfl, rfl, rfl⟩,
      nofun, nofun, fun _ _ => Memory.read_stored_outside (g := .out) rfl (convolvedWords_length_eq hw) s.mem⟩

/-! ### What the words of a command depend on -/

theorem State.entryDWord_congr {s u : State} {g : Region} {i : Nat}
    (h : s.mem.readDWord (g.addr i) = u.mem.readDWord (g.addr i)) : s.entryDWord g i = u.entryDWord g i := by
  rw [State.entryDWord, State.entryDWord, h]

theorem State.entryWord_congr {s u : State} {g : Region} {i : Nat}
    (h : s.mem.readWord (g.addr i) = u.mem.readWord (g.addr i)) : s.entryWord g i = u.entryWord g i := by
  rw [State.entryWord, State.entryWord, h]

/-- A scan depends on the entries of its range only, where each step depends on its own entry. -/
theorem scan_eq_of_entries {α β : Type} {f g : Nat → Except Stop α} {n : Nat} {x y : Nat → β}
    (hxy : ∀ i < n, x i = y i) (hfg : ∀ i, x i = y i → f i = g i) : scan f 0 n = scan g 0 n :=
  scan_congr f g 0 n fun i _ hi => hfg i (hxy i (by omega))

theorem outputWord_congr {o p : Snapshot} (hd : o.dataBits = p.dataBits) (hf : o.fracBits = p.fracBits)
    (ha : o.accBits = p.accBits) (hm : o.linear = p.linear) (hn : o.tapCount = p.tapCount) :
    outputWord o = outputWord p := by
  funext q x n
  simp only [outputWord, hd, hf, ha, hm, hn]

theorem quantizedWords_congr {s u : State} (hlmax : s.lmax = u.lmax) (hc : s.operands.coeffBits = u.operands.coeffBits)
    (hf : s.operands.fracBits = u.operands.fracBits) (hs : s.operands.strict = u.operands.strict)
    (hq : s.operands.qround = u.operands.qround) (hn : s.operands.tapCount = u.operands.tapCount)
    (htap : ∀ k < s.operands.tapCount, s.mem.readDWord (0x01000 + 8 * k) = u.mem.readDWord (0x01000 + 8 * k)) :
    quantizedWords s = quantizedWords u := by
  rw [hn] at htap
  have hentry : ∀ k < u.operands.tapCount, s.entryDWord .rawTap k = u.entryDWord .rawTap k := fun k hk =>
    State.entryDWord_congr (htap k hk)
  have hfin : scan (finiteTap s) 0 u.operands.tapCount = scan (finiteTap u) 0 u.operands.tapCount :=
    scan_eq_of_entries hentry fun k hk => by rw [finiteTap, finiteTap, hk]
  have hran : scan (rangedTap u.operands.coeffBits u.operands.fracBits s) 0
        (if u.operands.strict then u.operands.tapCount else 0) =
      scan (rangedTap u.operands.coeffBits u.operands.fracBits u) 0
        (if u.operands.strict then u.operands.tapCount else 0) :=
    scan_eq_of_entries (fun k hk => hentry k (hk.trans_le (by split <;> omega))) fun k hk => by
      rw [rangedTap, rangedTap, hk]
  simp only [quantizedWords, quantizeConfig, hlmax, hc, hf, hs, hq, hn, hfin, hran]

theorem normalizedWords_congr {s u : State} (hnmax : s.nmax = u.nmax) (hd : s.operands.dataBits = u.operands.dataBits)
    (hz : s.operands.intSamples = u.operands.intSamples) (hn : s.operands.sampleCount = u.operands.sampleCount)
    (hraw : ∀ i < s.operands.sampleCount, s.mem.readDWord (0x08000 + 8 * i) = u.mem.readDWord (0x08000 + 8 * i)) :
    normalizedWords s = normalizedWords u := by
  rw [hn] at hraw
  have hfin : scan (finiteSample u.operands.intSamples s) 0 u.operands.sampleCount =
      scan (finiteSample u.operands.intSamples u) 0 u.operands.sampleCount :=
    scan_eq_of_entries (fun i hi => State.entryDWord_congr (g := .rawSample) (hraw i hi)) fun i hi => by
      rw [finiteSample, finiteSample, hi]
  simp only [normalizedWords, normalizeConfig, hnmax, hd, hz, hn, hfin]

theorem convolvedWords_congr {s u : State} (hnmax : s.nmax = u.nmax) (hlmax : s.lmax = u.lmax)
    (hd : s.operands.dataBits = u.operands.dataBits) (hf : s.operands.fracBits = u.operands.fracBits)
    (ha : s.operands.accBits = u.operands.accBits) (hc : s.operands.coeffBits = u.operands.coeffBits)
    (hm : s.operands.linear = u.operands.linear) (hl : s.operands.tapCount = u.operands.tapCount)
    (hn : s.operands.sampleCount = u.operands.sampleCount)
    (hcoef : ∀ k < s.operands.tapCount, s.mem.readWord (0x02000 + 4 * k) = u.mem.readWord (0x02000 + 4 * k))
    (hsample : ∀ i < s.operands.sampleCount, s.mem.readWord (0x10000 + 4 * i) = u.mem.readWord (0x10000 + 4 * i)) :
    convolvedWords s = convolvedWords u := by
  rw [hl] at hcoef
  rw [hn] at hsample
  have hq : scan (rangedCoef u.operands.coeffBits s) 0 u.operands.tapCount =
      scan (rangedCoef u.operands.coeffBits u) 0 u.operands.tapCount :=
    scan_eq_of_entries (fun k hk => State.entryWord_congr (g := .coef) (hcoef k hk)) fun k hk => by
      rw [rangedCoef, rangedCoef, hk]
  have hx : scan (rangedSample u.operands.dataBits s) 0 u.operands.sampleCount =
      scan (rangedSample u.operands.dataBits u) 0 u.operands.sampleCount :=
    scan_eq_of_entries (fun i hi => State.entryWord_congr (g := .sample) (hsample i hi)) fun i hi => by
      rw [rangedSample, rangedSample, hi]
  simp only [convolvedWords, convolveConfig, hnmax, hlmax, hd, hf, ha, hc, hm, hl, hn, hq, hx,
    outputWord_congr hd hf ha hm hl]

/-- Settles O43, command by command: the checks see equal fields, and the scans equal entries. -/
theorem commandResultsDependOnlyOnTheirOperands : Obligations.CommandResultsDependOnlyOnTheirOperands :=
  ⟨fun _ _ => quantizedWords_congr, fun _ _ => normalizedWords_congr, fun _ _ => convolvedWords_congr⟩

end Sys2Proof.Machine
end

section
/-! Family 41_normalize.md: how NORMALIZE ends, in an error (R170, R173) or with its rounded samples stored
(R171, R172, R176). -/

namespace Sys2Proof.Machine

/-! ### Configuration errors -/

theorem execNormalize_of_config_raise {s : State} {code : ErrorCode} {idx : Nat} {val : DWord}
    (h : normalizeConfig s.operands s.nmax = .error (.raise ⟨code, idx, val⟩)) :
    exec .normalize s = .next (s.withError code idx val) :=
  execNormalize_of_raise s code idx val (by rw [normalizedWords, h, except_error_bind])

/-- Settles O27: the width check fails, or it passes and the length check fails. -/
theorem normalizeConfigurationErrors : Obligations.NormalizeConfigurationErrors := by
  intro s
  refine ⟨fun hd => ?_, fun hd hn => ?_⟩ <;> apply execNormalize_of_config_raise
  · rw [normalizeConfig, checkDataBits_fails _ hd, except_error_bind]
  · rw [normalizeConfig, (checkDataBits_eq_ok _ ()).mpr hd, except_ok_bind, checkSampleCount_fails _ _ hn]

/-! ### A non-finite sample -/

/-- The finiteness check of one sample, which integers always pass (30_encoding.md R124). -/
theorem intSamples_or_finite64 {z : Bool} {b : DWord} :
    (z || finite64 b) = true ↔ (z = false → finite64 b = true) := by
  cases z <;> simp

/-- As binary64, the scan stops at the lowest non-finite sample (41_normalize.md R173). -/
theorem execNormalize_nonFinite {s : State} {i : Nat} {b : DWord} (hl : s.NormalizeLegal)
    (hz : s.operands.intSamples = false) (hi : i < s.operands.sampleCount)
    (hpre : ∀ j < i, ∃ c, s.rawSampleIs j c ∧ finite64 c = true) (hb : s.rawSampleIs i b)
    (hfin : finite64 b = false) : exec .normalize s = .next (s.withError .nonFiniteSample i b) := by
  have hscan : scan (finiteSample s.operands.intSamples s) 0 s.operands.sampleCount =
      .error (.raise { code := .nonFiniteSample, idx := i, val := b }) := by
    rw [hz]
    exact scan_stops_at hi (fun j hj => (hpre j hj).imp fun c hc => (finiteSample_eq_ok false s j c).mpr hc)
      ((finiteSample_eq_error false s i _).mpr (.inr ⟨b, hb, hfin, rfl⟩))
  exact execNormalize_of_raise s _ _ _ (by rw [normalizedWords_of_legal s hl, hscan, except_error_bind])

/-- As integers, only an entry never written stops the scan. -/
theorem scan_intSamples_error {s : State} {n : Nat} {x : Stop} (h : scan (finiteSample true s) 0 n = .error x) :
    ∃ i, x = .fault (.neverWritten .rawSample i) := by
  obtain ⟨i, -, hstop, -⟩ := (scan_eq_error _ _ _ _).mp h
  rcases (finiteSample_eq_error _ _ _ _).mp hstop with ⟨-, rfl⟩ | ⟨b, -, hfail, -⟩
  · exact ⟨_, rfl⟩
  · simp at hfail

/-- With legal fields and integer samples NORMALIZE records no error at all. -/
theorem execNormalize_intSamples_errCode {s t : State} (hl : s.NormalizeLegal)
    (hz : s.operands.intSamples = true) (h : exec .normalize s = .next t) : t.errCode = s.errCode := by
  have hwords := normalizedWords_of_legal s hl
  cases hscan : scan (finiteSample s.operands.intSamples s) 0 s.operands.sampleCount with
  | ok raw =>
    rw [execNormalize_of_ok s _ (by rw [hwords, hscan, except_ok_bind, except_pure])] at h
    obtain rfl := Host.Outcome.next.inj h
    rfl
  | error x =>
    obtain ⟨i, rfl⟩ := scan_intSamples_error (hz ▸ hscan)
    rw [execNormalize_of_fault s _ (by rw [hwords, hscan, except_error_bind])] at h
    exact nomatch h

/-- Settles O31. As integers: a failing configuration check has its own code, and with legal fields no error is
recorded. -/
theorem normalizeReportsTheLowestNonFiniteSample : Obligations.NormalizeReportsTheLowestNonFiniteSample := by
  refine ⟨fun _ _ _ => execNormalize_nonFinite, fun s t hz hcode h => ?_⟩
  obtain ⟨hwidth, hlength⟩ := normalizeConfigurationErrors s
  by_cases hd : 1 ≤ s.operands.dataBits ∧ s.operands.dataBits ≤ 16
  · by_cases hn : s.operands.sampleCount ≤ s.nmax
    · rwa [execNormalize_intSamples_errCode ⟨hd, hn⟩ hz h]
    · obtain rfl := Host.Outcome.next.inj ((hlength hd (not_le.mp hn)).symm.trans h)
      exact nofun
  · obtain rfl := Host.Outcome.next.inj ((hwidth hd).symm.trans h)
    exact nofun

/-! ### Completion -/

/-- With legal fields and every sample acceptable, NORMALIZE has the samples' words to store. -/
theorem normalizedWords_ok {s : State} (hl : s.NormalizeLegal)
    (h : ∀ i < s.operands.sampleCount, ∃ b, s.rawSampleIs i b ∧
      (s.operands.intSamples = false → finite64 b = true)) : ∃ ws, normalizedWords s = .ok ws := by
  obtain ⟨raw, hscan⟩ := scan_of_all (finiteSample s.operands.intSamples s) _ fun i hi =>
    (h i hi).imp fun b hb => (finiteSample_eq_ok _ s i b).mpr ⟨hb.1, intSamples_or_finite64.mpr hb.2⟩
  exact ⟨_, by rw [normalizedWords_of_legal s hl, hscan, except_ok_bind, except_pure]⟩

theorem State.rawSampleIs_unique {s : State} {i : Nat} {b c : DWord} (hb : s.rawSampleIs i b)
    (hc : s.rawSampleIs i c) : b = c := Option.some.inj (hb.symm.trans hc)

/-- What a word NORMALIZE stores is, said with the sample it comes from (41_normalize.md R171, R172). -/
theorem normalizedWords_getElem {s : State} {ws : List Word} (hw : normalizedWords s = .ok ws) {i : Nat}
    (hi : i < ws.length) {b : DWord} (hb : s.rawSampleIs i b) :
    ws[i] = normalizeSample s.operands.intSamples s.operands.dataBits b := by
  obtain ⟨raw, -, -, hraw, rfl⟩ := (normalizedWords_eq_ok s ws).mp hw
  rw [List.length_map] at hi
  rw [List.getElem_map, State.rawSampleIs_unique (hraw i hi).1 hb]

theorem normalizeSample_binary64 (d : Nat) (b : DWord) :
    normalizeSample false d b = BitVec.ofInt 32 (clamp ⌊val64 b + 1 / 2⌋ 0 (2 ^ d - 1)) := rfl

theorem normalizeSample_integer (d : Nat) (b : DWord) :
    normalizeSample true d b = BitVec.ofInt 32 (clamp ⌊(b.toInt : ℚ) + 1 / 2⌋ 0 (2 ^ d - 1)) := rfl

/-- Settles O24: the words stored are the samples rounded half up and clamped, in the format that SFMT selects. -/
theorem normalizeStoresRoundedSamples : Obligations.NormalizeStoresRoundedSamples := by
  intro s hl h
  obtain ⟨ws, hw⟩ := normalizedWords_ok hl h
  have hn := normalizedWords_length_eq hw
  refine ⟨_, execNormalize_of_ok s ws hw, fun i hi b hb => ?_, fun a ha => ?_⟩
  · have hstored := Memory.readWord_stored (g := .sample) (m := s.mem) rfl rfl (hn ▸ hi)
    rw [normalizedWords_getElem hw _ hb] at hstored
    exact ⟨fun hz => hstored.trans (by rw [hz, normalizeSample_binary64]),
      fun hz => hstored.trans (by rw [hz, normalizeSample_integer])⟩
  · exact Memory.read_stored_outside (g := .sample) rfl hn s.mem ha

end Sys2Proof.Machine
end

section
/-! Family 42_convolve.md: the arithmetic of one output, from the MAC steps (R205) to the saturated sample (R209), and
the ideal sum beside it (R230). -/

namespace Sys2Proof.Machine

/-! ### Saturation (R209) -/

theorem clamp_of_lt {v lo hi : ℤ} (h : v < lo) : clamp v lo hi = lo := if_pos h

theorem clamp_of_gt {v lo hi : ℤ} (hlo : lo ≤ hi) (h : hi < v) : clamp v lo hi = hi := by
  rw [clamp, if_neg (by omega), if_pos h]

theorem clamp_clamp (v : ℤ) {lo hi : ℤ} (h : lo ≤ hi) : clamp (clamp v lo hi) lo hi = clamp v lo hi :=
  clamp_of_mem _ _ _ (clamp_mem v lo hi h)

/-! ### The wrap at A bits (R206) -/

@[simp] theorem wrap_zero (a : ℕ) : wrap a 0 = 0 := by simp [wrap]

/-- The wrap depends on the residue only. -/
theorem wrap_eq_of_modEq {a : ℕ} {s t : ℤ} (h : s ≡ t [ZMOD 2 ^ a]) : wrap a s = wrap a t := by
  rw [wrap, wrap, h]

theorem wrap_wrap_add (a : ℕ) (s p : ℤ) : wrap a (wrap a s + p) = wrap a (s + p) :=
  wrap_eq_of_modEq ((wrap_modEq a s).add_right p)

/-- An accumulator wrapped after every MAC step stays the wrap of the exact sum. -/
theorem macWrappedFrom_wrap (a : ℕ) (x : List ℤ) (n c : ℤ) (k : ℕ) (q : List ℤ) (acc : ℤ) :
    macWrappedFrom a x n c k q (wrap a acc) = wrap a (macFrom x n c k q acc) := by
  induction q generalizing k acc with
  | nil => rfl
  | cons v q ih => rw [macWrappedFrom, macFrom, wrap_wrap_add, ih]

/-- Settles O50: an accumulator that starts at 0 starts as the wrap of 0. -/
theorem perStepMaskingEqualsEndOfSumMasking : Obligations.PerStepMaskingEqualsEndOfSumMasking := by
  intro a q x n c _
  rw [tapSum, ← macWrappedFrom_wrap, wrap_zero]

/-! ### The rescale (R208) -/

theorem rescale_eq_floor (f : ℕ) (a : ℤ) : rescale f a = ⌊((a : ℚ) + 2 ^ (f - 1)) / 2 ^ f⌋ := by
  have h := Rat.floor_intCast_div_natCast (a + 2 ^ (f - 1)) (2 ^ f)
  push_cast at h
  exact h.symm

theorem rescale_eq_floor_add_half {f : ℕ} (a : ℤ) (hf : 1 ≤ f) : rescale f a = ⌊(a : ℚ) / 2 ^ f + 1 / 2⌋ := by
  have hbias : (2 : ℚ) ^ f = 2 * 2 ^ (f - 1) := by exact_mod_cast two_pow_pred f hf
  rw [rescale_eq_floor, add_div, hbias, div_mul_cancel_right₀ (by positivity), one_div]

/-- Settles O51: the shift is a floor division, and the bias over 2^F is 1/2. -/
theorem rescaleRoundsHalfUp : Obligations.RescaleRoundsHalfUp := fun f a hf =>
  ⟨rescale_eq_floor f a, rescale_eq_floor_add_half a hf⟩

/-- An integer times 2^F is rescaled to that integer: the bias alone does not reach the next one. -/
theorem rescale_two_pow_mul {f : ℕ} (v : ℤ) (hf : 1 ≤ f) : rescale f (2 ^ f * v) = v := by
  rw [rescale_eq_floor_add_half _ hf, Int.cast_mul, Int.cast_pow, Int.cast_ofNat,
    mul_div_cancel_left₀ _ (by positivity), floor_intCast_add_half]

/-! ### One output (R206, R208, R209) -/

theorem outputOf_eq (d f a : ℕ) (sum : ℤ) :
    outputOf d f a sum = clamp ((wrap a sum + 2 ^ (f - 1)) / 2 ^ f) 0 (2 ^ d - 1) := rfl

/-- A sum of 2^F times a sample is output as the sample where the accumulator holds every such sum. -/
theorem outputOf_two_pow_mul {d f a : ℕ} {v : ℤ} (hf : 1 ≤ f) (hwide : f + d < a) (hv : 0 ≤ v ∧ v ≤ sampleMax d) :
    outputOf d f a (2 ^ f * v) = v := by
  have hle : (2 : ℤ) ^ f * v ≤ 2 ^ f * (2 ^ d - 1) := mul_le_mul_of_nonneg_left hv.2 (by positivity)
  have hfd : (2 : ℤ) ^ f * 2 ^ d ≤ 2 ^ (a - 1) := by
    rw [← pow_add]; exact pow_le_pow_right₀ (by norm_num) (by omega)
  have hpos : (0 : ℤ) < 2 ^ f := by positivity
  have hnonneg : 0 ≤ (2 : ℤ) ^ f * v := mul_nonneg hpos.le hv.1
  rw [mul_sub_one] at hle
  rw [outputOf, wrap_of_mem a _ (by omega) ⟨by omega, by omega⟩, rescale_two_pow_mul v hf, clamp_of_mem _ _ _ hv]

theorem outputOf_zero {f : ℕ} (d a : ℕ) (hf : 1 ≤ f) : outputOf d f a 0 = 0 := by
  have hrescale : rescale f 0 = 0 := by simpa using rescale_two_pow_mul 0 hf
  rw [outputOf, wrap_zero, hrescale, clamp_of_mem _ _ _ ⟨le_rfl, sampleMax_nonneg d⟩]

/-! ### The tap sum (R201, R202, R205) -/

/-- A padded sample of a list built index by index. -/
theorem paddedSample_map_range (m : ℕ) (x : ℕ → ℤ) (i : ℤ) :
    paddedSample ((List.range m).map x) i = if 0 ≤ i ∧ i < m then x i.toNat else 0 := by
  rw [paddedSample, List.length_map, List.length_range]
  refine if_ctx_congr Iff.rfl (fun h => ?_) fun _ => rfl
  rw [List.getD_eq_getElem _ _ (by rw [List.length_map, List.length_range]; omega), List.getElem_map,
    List.getElem_range]

/-- The tap sum of lists built index by index. -/
theorem tapSum_map_range (l m : ℕ) (q x : ℕ → ℤ) (c n : ℕ) :
    tapSum ((List.range l).map q) ((List.range m).map x) c n = ∑ k ∈ Finset.range l, q k *
      (if 0 ≤ (n : ℤ) - k + c ∧ (n : ℤ) - k + c < m then x ((n : ℤ) - k + c).toNat else 0) := by
  rw [tapSum, macFrom_eq_sum, zero_add, List.length_map, List.length_range]
  refine Finset.sum_congr rfl fun k hk => ?_
  rw [paddedSample_map_range, Nat.zero_add, List.getD_eq_getElem _ _ (by simpa using hk), List.getElem_map,
    List.getElem_range]

/-- A padded sample is at least 0 and at most any bound of the samples. -/
theorem paddedSample_bounds {x : List ℤ} {b : ℤ} (hb : 0 ≤ b) (hx : ∀ v ∈ x, 0 ≤ v ∧ v ≤ b) (i : ℤ) :
    0 ≤ paddedSample x i ∧ paddedSample x i ≤ b := by
  obtain h | h := paddedSample_mem x i
  · rw [h]; exact ⟨le_rfl, hb⟩
  · exact hx _ h

theorem tapSum_of_zero_samples {x : List ℤ} (q : List ℤ) (c n : ℕ) (hx : ∀ v ∈ x, v = 0) : tapSum q x c n = 0 := by
  have hzero : ∀ i, paddedSample x i = 0 := fun i => (paddedSample_mem x i).elim id (hx _)
  simp only [tapSum, macFrom_eq_sum, hzero, mul_zero, Finset.sum_const_zero, add_zero]

/-! ### Widths (R211) -/

theorem abs_product_le {q x : ℤ} (hq : -2 ^ 31 ≤ q ∧ q ≤ 2 ^ 31 - 1) (hx : 0 ≤ x ∧ x ≤ 2 ^ 16 - 1) :
    |q * x| ≤ 2 ^ 31 * (2 ^ 16 - 1) := by
  rw [abs_mul, abs_of_nonneg hx.1]
  exact mul_le_mul (abs_le.mpr ⟨hq.1, by omega⟩) hx.2 hx.1 (by norm_num)

/-- L products are at most L times the largest one. -/
theorem abs_tapSum_le {q x : List ℤ} (c n : ℕ) (hq : ∀ v ∈ q, -2 ^ 31 ≤ v ∧ v ≤ 2 ^ 31 - 1)
    (hx : ∀ v ∈ x, 0 ≤ v ∧ v ≤ 2 ^ 16 - 1) : |tapSum q x c n| ≤ q.length * (2 ^ 31 * (2 ^ 16 - 1)) := by
  rw [tapSum, macFrom_eq_sum, zero_add]
  calc _ ≤ ∑ k ∈ Finset.range q.length, |q.getD k 0 * paddedSample x (n - (0 + k : ℕ) + c)| :=
        Finset.abs_sum_le_sum_abs _ _
    _ ≤ ∑ _k ∈ Finset.range q.length, 2 ^ 31 * (2 ^ 16 - 1) := Finset.sum_le_sum fun k hk => by
        rw [List.getD_eq_getElem _ _ (Finset.mem_range.mp hk)]
        exact abs_product_le (hq _ (List.getElem_mem _)) (paddedSample_bounds (by norm_num) hx _)
    _ = q.length * (2 ^ 31 * (2 ^ 16 - 1)) := by rw [Finset.sum_const, Finset.card_range, nsmul_eq_mul]

section
variable {f a : ℕ} (hf : 1 ≤ f) (ha : 1 ≤ a)

include ha in
theorem biased_wrap_mem (s : ℤ) (hf63 : f ≤ 63) (ha64 : a ≤ 64) :
    -2 ^ 64 ≤ wrap a s + 2 ^ (f - 1) ∧ wrap a s + 2 ^ (f - 1) ≤ 2 ^ 64 - 1 := by
  obtain ⟨hlo, hhi⟩ := wrap_mem a s ha
  have hacc : (2 : ℤ) ^ (a - 1) ≤ 2 ^ 63 := pow_le_pow_right₀ (by norm_num) (by omega)
  have hbias : (2 : ℤ) ^ (f - 1) ≤ 2 ^ 62 := pow_le_pow_right₀ (by norm_num) (by omega)
  have hpos : (0 : ℤ) < 2 ^ (f - 1) := by positivity
  norm_num at hacc hbias ⊢
  omega

include hf ha

/-- With F < A the A-bit range, divided by 2^F, holds the rescaled value; rounding can reach its upper end. -/
theorem rescale_wrap_mem (s : ℤ) (hfa : f < a) :
    -2 ^ (a - 1 - f) ≤ rescale f (wrap a s) ∧ rescale f (wrap a s) ≤ 2 ^ (a - 1 - f) := by
  obtain ⟨hlo, hhi⟩ := wrap_mem a s ha
  have hpos : (0 : ℤ) < 2 ^ (f - 1) := by positivity
  have hbias := two_pow_pred f hf
  have hacc : (2 : ℤ) ^ (a - 1) = 2 ^ (a - 1 - f) * 2 ^ f := by rw [← pow_add]; congr 1; omega
  refine ⟨(Int.le_ediv_iff_mul_le (by positivity)).mpr ?_,
    Int.lt_add_one_iff.mp ((Int.ediv_lt_iff_lt_mul (by positivity)).mpr ?_)⟩
  · rw [neg_mul, ← hacc]; omega
  · rw [add_mul, ← hacc]; omega

/-- With F ≥ A the bias outweighs any wrapped sum and the biased sum stays below 2^F. -/
theorem biased_wrap_mem_of_le (s : ℤ) (haf : a ≤ f) : 0 ≤ wrap a s + 2 ^ (f - 1) ∧ wrap a s + 2 ^ (f - 1) < 2 ^ f := by
  obtain ⟨hlo, hhi⟩ := wrap_mem a s ha
  have hbias := two_pow_pred f hf
  have hacc : (2 : ℤ) ^ (a - 1) ≤ 2 ^ (f - 1) := pow_le_pow_right₀ (by norm_num) (by omega)
  omega

theorem rescale_wrap_of_le (s : ℤ) (haf : a ≤ f) : rescale f (wrap a s) = 0 := by
  obtain ⟨hlo, hhi⟩ := biased_wrap_mem_of_le hf ha s haf
  exact Int.ediv_eq_zero_of_lt hlo hhi

end

/-- Settles O52: one product bounds the sum of at most 512 of them, and the range of the wrap bounds what follows it. -/
theorem arithmeticWidths : Obligations.ArithmeticWidths := by
  refine ⟨fun q x c n hl hq hx => ?_, fun q x hqlo hqhi hxlo hxhi => ?_, fun f a s hf hf63 ha ha64 =>
    ⟨wrap_mem a s ha, biased_wrap_mem ha s hf63 ha64, rescale_wrap_mem hf ha s, fun haf => ?_⟩⟩
  · have hle := abs_tapSum_le c n hq hx
    norm_num at hle ⊢
    omega
  · exact (abs_product_le ⟨hqlo, hqhi⟩ ⟨hxlo, hxhi⟩).trans_lt (by norm_num)
  · obtain ⟨hlo, hhi⟩ := biased_wrap_mem_of_le hf ha s haf
    exact ⟨hlo, hhi, rescale_wrap_of_le hf ha s haf⟩

/-! ### The ideal sum (R230) -/

theorem idealSample_map_cast (x : List ℤ) (i : ℤ) :
    idealSample (x.map fun v : ℤ => (v : ℚ)) i = (paddedSample x i : ℚ) := by
  have hget : (x.map fun v : ℤ => (v : ℚ)).getD i.toNat ((0 : ℤ) : ℚ) = (x.getD i.toNat 0 : ℤ) := List.getD_map ..
  rw [Int.cast_zero] at hget
  rw [idealSample, paddedSample, List.length_map, hget, Int.cast_ite, Int.cast_zero]

/-- On taps that are exactly q/2^F the ideal sum is the fixed-point sum over 2^F. -/
theorem idealFrom_scaled (f : ℕ) (x : List ℤ) (n c : ℤ) (k : ℕ) (q : List ℤ) (acc : ℤ) :
    (acc : ℚ) / 2 ^ f + idealFrom (x.map fun v : ℤ => (v : ℚ)) n c k (q.map fun v : ℤ => (v : ℚ) / 2 ^ f) =
      (macFrom x n c k q acc : ℚ) / 2 ^ f := by
  induction q generalizing k acc with
  | nil => exact add_zero _
  | cons v q ih =>
    rw [macFrom, ← ih, List.map_cons, idealFrom, idealSample_map_cast]
    push_cast
    ring

theorem idealCentered_scaled_getElem (f : ℕ) (q x : List ℤ) (n : ℕ)
    (h : n < (idealCentered (q.map fun v : ℤ => (v : ℚ) / 2 ^ f) (x.map fun v : ℤ => (v : ℚ))).length) :
    (idealCentered (q.map fun v : ℤ => (v : ℚ) / 2 ^ f) (x.map fun v : ℤ => (v : ℚ)))[n] =
      (tapSum q x (q.length / 2) n : ℚ) / 2 ^ f := by
  rw [tapSum, ← idealFrom_scaled]
  simp [idealCentered, kernelCenter]

/-- Settles O55: a sum that fits A bits is not changed by the wrap, and the rescale rounds it over 2^F half up. -/
theorem fixedOutputIsTheRoundedIdeal : Obligations.FixedOutputIsTheRoundedIdeal := by
  intro d f a q x n h hf ha hlo hhi
  rw [outputOf, wrap_of_mem a _ ha ⟨hlo, hhi⟩, rescale_eq_floor_add_half _ hf, idealCentered_scaled_getElem, sampleMax]

end Sys2Proof.Machine
end

section
/-! Family 42_convolve.md: how CONVOLVE ends, in an error (R200, R203, R204) or with its outputs stored (R205-R212). -/

namespace Sys2Proof.Machine

/-! ### Configuration errors -/

theorem execConvolve_of_config_raise {s : State} {code : ErrorCode} {idx : Nat} {val : DWord}
    (h : convolveConfig s.operands s.nmax s.lmax = .error (.raise ⟨code, idx, val⟩)) :
    exec .convolve s = .next (s.withError code idx val) :=
  execConvolve_of_raise s code idx val (by rw [convolvedWords, h, except_error_bind])

/-- A check that passes leaves the rest of the checks to decide. -/
theorem bind_of_ok {α : Type} {x : Except Stop Unit} {y r : Except Stop α} (hx : x = .ok ()) (hy : y = r) :
    (x >>= fun _ => y) = r := by rw [hx, except_ok_bind, hy]

/-- Settles O28: the checks before the failing one pass, and that one raises its error. -/
theorem convolveConfigurationErrors : Obligations.ConvolveConfigurationErrors := by
  intro s o dOk fOk aOk cOk
  refine ⟨fun hd => ?_, fun hd hf => ?_, fun hd hf ha => ?_, fun hd hf ha hc => ?_, fun hd hf ha hc hl => ?_,
    fun hd hf ha hc hl hn => ?_, fun hd hf ha hc hl hn hl' => ?_⟩ <;> apply execConvolve_of_config_raise
  · rw [convolveConfig, checkDataBits_fails _ hd, except_error_bind]
  all_goals refine bind_of_ok ((checkDataBits_eq_ok _ ()).mpr hd) ?_
  · rw [checkFracBits_fails _ hf, except_error_bind]
  all_goals refine bind_of_ok ((checkFracBits_eq_ok _ ()).mpr hf) ?_
  · rw [checkAccBits_fails _ ha, except_error_bind]
  all_goals refine bind_of_ok ((checkAccBits_eq_ok _ ()).mpr ha) ?_
  · rw [checkCoeffBits_fails _ hc, except_error_bind]
  all_goals refine bind_of_ok ((checkCoeffBits_eq_ok _ ()).mpr hc) ?_
  · rw [checkNotEmpty_fails _ hl, except_error_bind]
  all_goals refine bind_of_ok ((checkNotEmpty_eq_ok _ ()).mpr (Nat.pos_of_ne_zero hl)) ?_
  · rw [checkSampleCount_fails _ _ hn, except_error_bind]
  · exact bind_of_ok ((checkSampleCount_eq_ok _ _ ()).mpr hn) (checkTapCount_fails _ _ hl')

/-! ### Errors found in an entry -/

/-- Settles O32: the scan of the coefficients stops there, after coefficients in range. -/
theorem convolveReportsTheFirstBadCoefficient : Obligations.ConvolveReportsTheFirstBadCoefficient := by
  intro s k v hl hk hpre hv hout
  have hscan : scan (rangedCoef s.operands.coeffBits s) 0 s.operands.tapCount =
      .error (.raise { code := .qCoefOutOfRange, idx := k, val := v.signExtend 64 }) :=
    scan_stops_at hk (fun j hj => rangedCoef_ok (hpre j hj))
      ((rangedCoef_eq_error _ s k _).mpr (.inr ⟨v, hv, hout, rfl⟩))
  exact execConvolve_of_raise s _ _ _ (by rw [convolvedWords_of_legal s hl, hscan, except_error_bind])

/-- Settles O33: the scan of the coefficients goes through, and the scan of the samples stops there. -/
theorem convolveReportsTheFirstBadSample : Obligations.ConvolveReportsTheFirstBadSample := by
  intro s i v hl hcoef hi hpre hv hout
  obtain ⟨q, hq⟩ := scan_of_all _ _ fun k hk => rangedCoef_ok (hcoef k hk)
  have hlt : sampleMax s.operands.dataBits < v.toNat := by rwa [← not_le, le_sampleMax, not_le]
  have hscan : scan (rangedSample s.operands.dataBits s) 0 s.operands.sampleCount =
      .error (.raise { code := .sampleOutOfRange, idx := i, val := v.setWidth 64 }) :=
    scan_stops_at hi (fun j hj => rangedSample_ok (hpre j hj))
      ((rangedSample_eq_error _ s i _).mpr (.inr ⟨v, hv, hlt, by rw [zext64, BitVec.ofNat_toNat]⟩))
  exact execConvolve_of_raise s _ _ _
    (by rw [convolvedWords_of_legal s hl, hq, except_ok_bind, hscan, except_error_bind])

/-! ### Completion -/

/-- Nout by the mode (42_convolve.md R201, R207). -/
theorem outputCount_centered (n l : Nat) : outputCount false n l = n := rfl

theorem outputCount_linear (n l : Nat) : outputCount true n l = if n = 0 then 0 else n + l - 1 := rfl

/-- N is a field of 16 bits, so OUTLEN can hold it (10_state.md R39, R41). -/
theorem toNat_ofNat_sampleCount (o : Snapshot) : (BitVec.ofNat 32 o.sampleCount).toNat = o.sampleCount := by
  have hlt : o.sampleCount < 2 ^ 16 := (o.nlen.extractLsb' 0 16).isLt
  rw [BitVec.toNat_ofNat, Nat.mod_eq_of_lt (by omega)]

/-- With legal fields and every coefficient and sample acceptable, CONVOLVE has the outputs' words to store. -/
theorem convolvedWords_ok {s : State} {q x : Nat → Word} (hl : s.ConvolveLegal)
    (hq : ∀ k < s.operands.tapCount, s.coefIs k (q k) ∧ -2 ^ (s.operands.coeffBits - 1) ≤ (q k).toInt ∧
      (q k).toInt ≤ 2 ^ (s.operands.coeffBits - 1) - 1)
    (hx : ∀ i < s.operands.sampleCount, s.sampleIs i (x i) ∧ (x i).toNat ≤ 2 ^ s.operands.dataBits - 1) :
    convolvedWords s =
      .ok ((List.range (outputCount s.operands.linear s.operands.sampleCount s.operands.tapCount)).map
        (outputWord s.operands ((List.range s.operands.tapCount).map fun k => (q k).toInt)
          ((List.range s.operands.sampleCount).map fun i => ((x i).toNat : ℤ)))) := by
  refine (convolvedWords_eq_ok s _).mpr ⟨_, _, hl, ?_, fun k hk => ?_, ?_, fun i hi => ?_, rfl⟩
  · rw [List.length_map, List.length_range]
  · obtain ⟨hcoef, hlo, hhi⟩ := hq k (by simpa using hk)
    exact ⟨q k, hcoef, hlo, hhi, by rw [List.getElem_map, List.getElem_range]⟩
  · rw [List.length_map, List.length_range]
  · obtain ⟨hsample, hle⟩ := hx i (by simpa using hi)
    exact ⟨x i, hsample, (le_sampleMax _ _).mpr hle, by rw [List.getElem_map, List.getElem_range]⟩

/-- Settles O25: the words stored are the outputs, and the tap sum over lists is the sum the statement writes. -/
theorem convolveStoresWrappedRescaledSums : Obligations.ConvolveStoresWrappedRescaledSums := by
  intro s q x hl hq hx
  have hw := convolvedWords_ok hl hq hx
  have hn := convolvedWords_length_eq hw
  obtain ⟨acc, draws, hleave⟩ := leaveAccumulator_eq _ { s with mem := _, outlen := _ }
  refine ⟨_, _, kernelCenter s.operands.linear s.operands.tapCount, acc, draws, fun hm => ?_, fun hm => ?_,
    (execConvolve_of_ok s _ hw).trans ?_, fun n hlt => ?_, fun a => Memory.read_stored_outside (g := .out) rfl hn s.mem⟩
  · rw [hm]; exact ⟨outputCount_centered _ _, rfl⟩
  · rw [hm]; exact ⟨rfl, outputCount_linear _ _⟩
  · rw [hleave, hn, State.complete]
  · refine (Memory.readWord_stored (g := .out) rfl rfl (hlt.trans_eq hn.symm)).trans ?_
    rw [List.getElem_map, List.getElem_range, outputWord, tapSum_map_range, outputOf_eq]

/-- Settles O54: the one product is 2^F times the sample at n itself, in either mode. -/
theorem unitTapIsTheIdentity : Obligations.UnitTapIsTheIdentity := by
  intro s x w hl htap hcoef hval hmax hwide hx
  have hq : ∀ k < s.operands.tapCount, s.coefIs k w ∧ -2 ^ (s.operands.coeffBits - 1) ≤ w.toInt ∧
      w.toInt ≤ 2 ^ (s.operands.coeffBits - 1) - 1 := fun k hk => by
    obtain rfl : k = 0 := by omega
    exact ⟨hcoef, by rw [hval]; exact (neg_nonpos.mpr (by positivity)).trans (by positivity), hmax⟩
  obtain ⟨m, nout, c, acc, draws, hcentered, hlinear, hexec, hout, -⟩ :=
    convolveStoresWrappedRescaledSums s (fun _ => w) x hl hq hx
  obtain ⟨rfl, rfl⟩ : nout = s.operands.sampleCount ∧ c = 0 := by
    cases hm : s.operands.linear with
    | false => have := hcentered hm; omega
    | true => have := hlinear hm; split at this <;> omega
  refine ⟨_, hexec, toNat_ofNat_sampleCount _, fun i hi => (hout i hi).trans ?_⟩
  have hin : 0 ≤ (i : ℤ) - (0 : ℕ) + (0 : ℕ) ∧ (i : ℤ) - (0 : ℕ) + (0 : ℕ) < s.operands.sampleCount := by omega
  have hsample : ((x i).toNat : ℤ) ≤ sampleMax s.operands.dataBits := (le_sampleMax _ _).mpr (hx i hi).2
  rw [← outputOf_eq, htap, Finset.sum_range_one, if_pos hin, hval, Nat.cast_zero, sub_zero, add_zero, Int.toNat_natCast,
    outputOf_two_pow_mul hl.frac.1 hwide ⟨Int.natCast_nonneg _, hsample⟩, BitVec.ofInt_natCast, BitVec.ofNat_toNat,
    BitVec.setWidth_eq]

/-! ### The document's properties (R214) -/

theorem State.sampleIs_unique {s : State} {i : Nat} {v w : Word} (hv : s.sampleIs i v) (hw : s.sampleIs i w) : v = w :=
  Option.some.inj (hv.symm.trans hw)

theorem execConvolve_centered_outlen {s t : State} (hm : s.operands.linear = false) (h : exec .convolve s = .next t)
    (herr : t.err = false) : t.outlen.toNat = s.operands.sampleCount := by
  obtain ⟨ws, hw, -, hout⟩ := execConvolve_stores h herr
  rw [hout, convolvedWords_length_eq hw, hm, outputCount_centered, toNat_ofNat_sampleCount]

/-- Zero samples make every tap sum 0, whatever the coefficients are. -/
theorem execConvolve_zero_samples {s t : State} {n : Nat} (hzero : ∀ i < s.operands.sampleCount, s.sampleIs i 0#32)
    (h : exec .convolve s = .next t) (herr : t.err = false) (hn : n < t.outlen.toNat) : t.outIs n 0#32 := by
  obtain ⟨ws, hw, hmem, hout⟩ := execConvolve_stores h herr
  have hlt : n < ws.length := hn.trans_le (hout ▸ Nat.mod_le _ _)
  refine (Memory.readWord_stored (g := .out) rfl hmem hlt).trans ?_
  obtain ⟨q, x, hl, -, -, hxn, hx, rfl⟩ := (convolvedWords_eq_ok s ws).mp hw
  have hxzero : ∀ v ∈ x, v = 0 := fun v hv => by
    obtain ⟨i, hi, rfl⟩ := List.getElem_of_mem hv
    obtain ⟨w, hsample, -, hxi⟩ := hx i hi
    rw [hxi, State.sampleIs_unique hsample (hzero i (hxn ▸ hi))]
    rfl
  rw [List.getElem_map, outputWord, tapSum_of_zero_samples q _ _ hxzero, outputOf_zero _ _ hl.frac.1]
  rfl

/-- Settles O53: the two properties of a run, and the two of the saturation. -/
theorem statedPropertiesOfConvolve : Obligations.StatedPropertiesOfConvolve :=
  ⟨fun _ _ _ hm _ => execConvolve_centered_outlen hm, fun _ _ _ _ _ => execConvolve_zero_samples,
    fun r _ => clamp_clamp r,
    fun v lo hi hle => ⟨clamp_of_lt, clamp_of_gt hle, fun hlo hhi => clamp_of_mem v lo hi ⟨hlo, hhi⟩⟩⟩

end Sys2Proof.Machine
end

section
/-! Family 60_exceptions.md: the numbers of the error codes (R250), the precise error (R262), and that no run reads the
reserved code (V5 of 93_implementation_defined.md). -/

namespace Sys2Proof.Machine

/-- Settles O18, by evaluating the numbering on the thirteen codes. -/
theorem errorCodeNumbers : Obligations.ErrorCodeNumbers := rfl

/-- Settles O35: a command that stores its words leaves ERR as it found it, so one that sets ERR raised an error on the
state it started from. -/
theorem erroredCommandIsPrecise : Obligations.ErroredCommandIsPrecise := by
  intro i s t h hs ht
  have herr : t.err ≠ s.err := by simp [hs, ht]
  rcases exec_next_cases i s t h with ⟨e, rfl, h0, h7⟩ | ⟨-, ws, -, rfl⟩ | ⟨-, ws, -, rfl⟩ | ⟨-, ws, -, rfl⟩
  · exact ⟨e.code, e.idx, e.val, h0, h7, s.raiseError_eq_withError e⟩
  · exact absurd rfl herr
  · exact absurd rfl herr
  · exact absurd (leaveAccumulator_err ws.length _) herr

/-- Only a host's transaction can be refused, and only while STATUS holds the reserved code (log 10). -/
theorem handle_eq_refused {e : Event} {s : State} {r : Refusal} (h : handle e s = .refused r) :
    ∃ t, e = .bus t ∧ r = .reservedErrorCode ∧ s.errCode = .shapeMismatch := by
  cases e with
  | bus t => exact ⟨t, rfl, transact_eq_refused t s r h⟩
  | cycle => exact nomatch h
  | engine => exact absurd h (engineTurn_ne_refused s r)
  | reset => exact nomatch h

theorem step_eq_refused {s : State} {r : Refusal} (h : step s = .refused r) :
    ∃ t rest, s.pending = .bus t :: rest ∧ r = .reservedErrorCode ∧ s.errCode = .shapeMismatch := by
  cases hp : s.pending with
  | nil => exact absurd (step_of_nil hp ▸ h) (engineTurn_ne_refused s r)
  | cons e rest =>
    obtain ⟨t, rfl, hr, hcode⟩ := handle_eq_refused (step_of_cons hp ▸ h)
    exact ⟨t, rest, rfl, hr, hcode⟩

/-- Settles O41: a refused step needs the reserved code in STATUS, which the invariant excludes. -/
theorem invariantStatesAreNeverRefused : Obligations.InvariantStatesAreNeverRefused := by
  intro s r hi h
  obtain ⟨_, _, -, -, hcode⟩ := step_eq_refused h
  exact hi.flags.notReserved hcode

end Sys2Proof.Machine
end

section
/-! Family 70_reset_and_hazards.md: what a reset leaves (R290-R292), and that an accepted command completes after any
latency (R309, R310). -/

namespace Sys2Proof.Machine

/-! ### Reset -/

theorem step_of_reset {s : State} {rest : List Event} (h : s.pending = .reset :: rest) :
    step s = .next (resetBlock { s with pending := rest }) :=
  step_of_cons h

/-- PARAM alone is the build's and not the table's (10_state.md R34). -/
theorem regValue_resetBlock (s : State) {r : Reg} (h : r ≠ .param) : regValue (resetBlock s) r = regValue State.reset r := by
  cases r with
  | param => exact absurd rfl h
  | id | cmd | status | cfg0 | cfg1 | nlen | llen | outlen | errIdx | errValLo | errValHi => rfl

theorem State.reset_legalBuild : State.reset.LegalBuild := ⟨by decide, by decide, by decide, by decide⟩

/-- Settles O21, by evaluating the registers and the operand fields of the one state. -/
theorem resetLeavesTheStatedValues : Obligations.ResetLeavesTheStatedValues :=
  ⟨rfl, rfl, rfl, rfl, rfl, rfl, rfl, rfl, rfl, rfl, rfl, rfl, rfl, rfl, rfl, rfl, rfl, rfl, rfl, rfl, rfl, rfl, fun _ => rfl⟩

/-- Settles O22: no register but PARAM depends on the state the reset found, BUSY or not. -/
theorem resetWhileBusyAbandonsTheCommand : Obligations.ResetWhileBusyAbandonsTheCommand := by
  intro s o rest _ hp
  exact ⟨_, step_of_reset hp, rfl, rfl, rfl, fun _ => rfl, fun _ => regValue_resetBlock _, rfl, rfl⟩

/-- Settles O60: each register but PARAM reads as in the reset state, whose values O21 gives. -/
theorem resetFromAnyStateLeavesTheStatedValues : Obligations.ResetFromAnyStateLeavesTheStatedValues := by
  intro s rest hp
  have hreg {r : Reg} {v : Word} (h : r ≠ .param) (hv : regValue State.reset r = v) :
      regValue (resetBlock { s with pending := rest }) r = v := (regValue_resetBlock _ h).trans hv
  obtain ⟨-, hid, -, -, -, hstatus, hcfg0, hcfg1, hnlen, hllen, houtlen, hidx, hlo, hhi, -⟩ := resetLeavesTheStatedValues
  exact ⟨_, step_of_reset hp, rfl, rfl, rfl, rfl, hreg nofun hid, hreg nofun hstatus, hreg nofun hcfg0, hreg nofun hcfg1,
    hreg nofun hnlen, hreg nofun hllen, hreg nofun houtlen, hreg nofun hidx, hreg nofun hlo, hreg nofun hhi,
    fun _ => rfl, rfl, rfl⟩

/-- Settles O39: the default build is legal, and `State.reset` is what a reset makes of itself. -/
theorem invariantHoldsAtReset : Obligations.InvariantHoldsAtReset :=
  State.reset_legalBuild.resetBlock_inv

/-! ### Waiting -/

theorem engineTurn_idle {s : State} (h : s.engine = .idle) : engineTurn s = .next s := by
  rw [engineTurn, h]

/-- Settles O6: with no input left the step is the engine's turn, and an IDLE engine waits. -/
theorem idleBlockWaits : Obligations.IdleBlockWaits := fun _ hidle hp => (step_of_nil hp).trans (engineTurn_idle hidle)

/-! ### Completion after any latency -/

/-- How the turn that runs an accepted word may come out: completed (10_state.md R55), or at the fault of an entry never
written (R56). -/
def CompletesOrNeverWritten (x : Host.Outcome State Fault Refusal) : Prop :=
  (∃ t, x = .next t ∧ t.engine = .idle ∧ t.done = true) ∨ ∃ g k, x = .fault (.neverWritten g k)

theorem exec_completesOrNeverWritten (i : Instr) (s : State) : CompletesOrNeverWritten (exec i s) := by
  cases h : exec i s with
  | next t =>
    obtain ⟨hidle, hdone, -⟩ := commandsChangeOnlyTheirDestination i s t h
    exact .inl ⟨t, rfl, hidle, hdone⟩
  | fault f =>
    rcases exec_eq_fault i s f h with ⟨-, k, -, rfl, -⟩ | ⟨-, k, -, rfl, -⟩ | ⟨-, ⟨k, -, rfl, -⟩ | ⟨k, -, rfl, -⟩⟩ <;>
      exact .inr ⟨_, k, rfl⟩
  | refused r => exact absurd h (exec_ne_refused i s r)

/-- An illegal word completes too, with its error (30_encoding.md R112). -/
theorem runWord_completesOrNeverWritten (v : Word) (s : State) : CompletesOrNeverWritten (runWord v s) := by
  cases hd : decode v with
  | ok i => exact runWord_of_ok s hd ▸ exec_completesOrNeverWritten i s
  | error r => exact .inl ⟨_, runWord_of_error s hd, rfl, rfl⟩

theorem run_one (M : Host.Core) (s : M.State) : M.run 1 s = M.step s := by
  rw [Host.Core.run]
  cases M.step s <;> rfl

theorem core_run_one (s : State) : Sys2Proof.core.run 1 s = step s := run_one Sys2Proof.core s

theorem step_cycle_busy {s : State} {o : Snapshot} {rest : List Event} (hbusy : s.engine = .busy o)
    (hp : s.pending = .cycle :: rest) :
    step s = .next { s.delayed o (o.progress + 1) s.response s.draws with pending := rest } :=
  (step_of_cons hp).trans (congrArg Host.Outcome.next (passCycle_busy (s := { s with pending := rest }) hbusy))

/-- n cycles only count in the command's progress (log 13), and then its word is run. -/
theorem core_run_cycles {s : State} {o : Snapshot} {n : Nat} (hbusy : s.engine = .busy o)
    (hp : s.pending = List.replicate n .cycle) :
    Sys2Proof.core.run (n + 1) s =
      runWord o.word { s.delayed o (o.progress + n) s.response s.draws with pending := [] } := by
  induction n generalizing s o with
  | zero => rw [core_run_one, step_busy hbusy (.inr ⟨hp, rfl⟩), Nat.add_zero, State.delayed_self hbusy]
  | succ n ih =>
    rw [core_run_next _ _ _ (step_cycle_busy hbusy hp), ih (o := { o with progress := o.progress + 1 }) rfl rfl,
      Nat.add_comm n 1, ← Nat.add_assoc]
    rfl

/-- Settles O9: the run ends in the turn that runs the accepted word. -/
theorem acceptedCommandCompletesAfterAnyLatency : Obligations.AcceptedCommandCompletesAfterAnyLatency := by
  intro s o n hbusy hp
  rw [core_run_cycles hbusy hp]
  exact runWord_completesOrNeverWritten o.word _

end Sys2Proof.Machine
end
